-- ==== Sys2Proof/Word.lean ====
section
/-! DEFINITION. The block's words: a byte, the 16-bit and 32-bit values the rules speak of, and byte
strings (00_scope.md R9, R10). -/

namespace Sys2Proof

/-- A byte: bit 7 the most significant, bit 0 the least (00_scope.md R9, 20_memory.md R41). -/
abbrev Byte := BitVec 8

/-- A 16-bit value: a ROM entry, the CRC state, a protocol field of two bytes. -/
abbrev Word16 := BitVec 16

/-- A 32-bit value: a descriptor's value or length field (00_scope.md R8). -/
abbrev Word32 := BitVec 32

/-- A finite byte string, offset 0 first (00_scope.md R10, 20_memory.md R41). -/
abbrev Bytes := List Byte

end Sys2Proof
end

