-- ==== Sys2Proof/Machine/Bytes.lean ====
section
/-! DEFINITION. The field helpers of 00_scope.md R12 and the byte-string operations of R10: big-endian
rendering and reading, substrings. The whole interface has one byte order (20_memory.md R41 to R45). -/

namespace Sys2Proof.Machine

/-- `be16(v) = [v[15:8], v[7:0]]` (00_scope.md R12). -/
def be16 (v : Word16) : Bytes := [v.extractLsb' 8 8, v.extractLsb' 0 8]

/-- `be32(v) = [v[31:24], v[23:16], v[15:8], v[7:0]]` (00_scope.md R12). -/
def be32 (v : Word32) : Bytes :=
  [v.extractLsb' 24 8, v.extractLsb' 16 8, v.extractLsb' 8 8, v.extractLsb' 0 8]

/-- The byte `s[i]` as an unsigned integer (00_scope.md R9, R10). Callers have checked that the string holds
offset i; past its end this reads 0. -/
def byteAt (s : Bytes) (i : Nat) : Nat := (s.getD i 0).toNat

/-- `u16be(s, i)` (00_scope.md R12). -/
def u16be (s : Bytes) (i : Nat) : Nat := 2 ^ 8 * byteAt s i + byteAt s (i + 1)

/-- `u32be(s, i)` (00_scope.md R12). -/
def u32be (s : Bytes) (i : Nat) : Nat :=
  2 ^ 24 * byteAt s i + 2 ^ 16 * byteAt s (i + 1) + 2 ^ 8 * byteAt s (i + 2) + byteAt s (i + 3)

/-- The `n` bytes of `s` from offset `i`: `s[i..i+n)` (00_scope.md R10). -/
def substring (s : Bytes) (i n : Nat) : Bytes := (s.drop i).take n

end Sys2Proof.Machine
end

