-- ==== Sys2Proof/Syntax.lean ====
section
/-! DEFINITION. The commands of the JFE command set, version 1: one constructor per row of
spec/opcode_table.json (30_encoding.md R69). Integer fields keep the full width the descriptor gives them, so
that the out-of-range values of R62 can be spelled; byte-string fields are lists, whose lengths
Sys2Proof/WellFormed.lean bounds. -/

namespace Sys2Proof

/-- One command with its operand fields (30_encoding.md R61 to R67). -/
inductive Instr where
  /-- XOR8 `data`: opcode 0x01, format SEQ (R61, 40_checksum_crc.md R100). -/
  | xor8 (data : Bytes)
  /-- CRC16 `data`: opcode 0x02, format SEQ (R61, 40_checksum_crc.md R103). -/
  | crc16 (data : Bytes)
  /-- ESCAPE `data`: opcode 0x03, format SEQ (R61, 42_escaper.md R140). -/
  | escape (data : Bytes)
  /-- PACK_BE16 `v`: opcode 0x10, format VAL (R62, 41_field_codec.md R120). -/
  | packBe16 (v : Word32)
  /-- PACK_BCD `digits`: opcode 0x11, format DIG (R63, 41_field_codec.md R122). -/
  | packBcd (digits : Bytes)
  /-- BSJ_LEN `v`: opcode 0x12, format VAL (R62, 41_field_codec.md R124). -/
  | bsjLen (v : Word32)
  /-- GT06_LEN `v`: opcode 0x13, format VAL (R62, 41_field_codec.md R126). -/
  | gt06Len (v : Word32)
  /-- FRAME `p, raw`: opcode 0x20, format PSEQ (R64, 43_framer.md R150). -/
  | frame (p : Byte) (raw : Bytes)
  /-- BUILD_BSJ `serial, digits, text`: opcode 0x30, format BSJ (R65, 44_builder_bsj.md R160). -/
  | buildBsj (serial : Word32) (digits : Bytes) (text : Bytes)
  /-- BUILD_GT06 `serial, lang, text`: opcode 0x31, format GT06 (R66, 45_builder_gt06.md R170). -/
  | buildGt06 (serial : Word32) (lang : Byte) (text : Bytes)
deriving DecidableEq, Repr

end Sys2Proof
end

