-- ==== Sys2Proof/WellFormed.lean ====
section
/-! DEFINITION. Which instructions a descriptor can spell: the byte-string operands must fit the length
fields of their formats (30_encoding.md R61 to R66). Integer operands fit by their types. -/

namespace Sys2Proof

/-- A byte string fits a u32 length field: 0 to 2^32 - 1 bytes (00_scope.md R8, 30_encoding.md R61). -/
def fitsU32 (s : Bytes) : Bool := decide (s.length < 2 ^ 32)

/-- A digit string fits the u8 digit count: 0 to 255 bytes (30_encoding.md R63). -/
def fitsU8 (s : Bytes) : Bool := decide (s.length < 2 ^ 8)

/-- The instruction can be spelled as a descriptor. -/
def Instr.wf : Instr → Bool
  | .xor8 data => fitsU32 data
  | .crc16 data => fitsU32 data
  | .escape data => fitsU32 data
  | .packBe16 _ => true
  | .packBcd digits => fitsU8 digits
  | .bsjLen _ => true
  | .gt06Len _ => true
  | .frame _ raw => fitsU32 raw
  | .buildBsj _ digits text => fitsU8 digits && fitsU32 text
  | .buildGt06 _ _ text => fitsU32 text

end Sys2Proof
end

