-- ==== Sys2Proof/Decode.lean ====
section
/-! DEFINITION. The decoder of command descriptors, total on any byte string and rejecting by name, and the
encoder (30_encoding.md R60 to R70). -/

namespace Sys2Proof

open Machine

/-- The descriptor formats (30_encoding.md R61 to R66). -/
inductive Format where
  | seq | val | dig | pseq | bsj | gt06
deriving DecidableEq, Repr

/-- The assigned opcodes (30_encoding.md R69). -/
inductive Opcode where
  | xor8 | crc16 | escape | packBe16 | packBcd | bsjLen | gt06Len | frame | buildBsj | buildGt06
deriving DecidableEq, Repr

/-- Why a descriptor is not structurally valid (30_encoding.md R68, 60_exceptions.md R204). Every reason
raises the same error kind, BadCommand; the reason itself is not reported. -/
inductive BadDescriptor where
  /-- An empty descriptor. -/
  | empty
  /-- A reserved opcode (30_encoding.md R70). -/
  | reservedOpcode (op : Byte)
  /-- Too short to hold the fixed fields and length fields of its format. -/
  | tooShort (need : Nat)
  /-- Its length differs from the length its fields require. -/
  | lengthMismatch (required : Nat)
deriving DecidableEq, Repr

/-- The opcode map (30_encoding.md R69). -/
def opcodeByte : Opcode → Byte
  | .xor8 => 0x01
  | .crc16 => 0x02
  | .escape => 0x03
  | .packBe16 => 0x10
  | .packBcd => 0x11
  | .bsjLen => 0x12
  | .gt06Len => 0x13
  | .frame => 0x20
  | .buildBsj => 0x30
  | .buildGt06 => 0x31

/-- The opcode a byte is assigned to; none for the reserved bytes (30_encoding.md R69, R70). -/
def opcodeOf (b : Byte) : Option Opcode :=
  if b = 0x01 then some .xor8
  else if b = 0x02 then some .crc16
  else if b = 0x03 then some .escape
  else if b = 0x10 then some .packBe16
  else if b = 0x11 then some .packBcd
  else if b = 0x12 then some .bsjLen
  else if b = 0x13 then some .gt06Len
  else if b = 0x20 then some .frame
  else if b = 0x30 then some .buildBsj
  else if b = 0x31 then some .buildGt06
  else none

/-- The format column of 30_encoding.md R69. -/
def formatOf : Opcode → Format
  | .xor8 | .crc16 | .escape => .seq
  | .packBe16 | .bsjLen | .gt06Len => .val
  | .packBcd => .dig
  | .frame => .pseq
  | .buildBsj => .bsj
  | .buildGt06 => .gt06

/-- `need m`: the descriptor is long enough to hold m bytes (30_encoding.md R68). -/
def needBytes (desc : Bytes) (m : Nat) : Except BadDescriptor Unit :=
  if desc.length < m then .error (.tooShort m) else .ok ()

/-- The required length L of a descriptor, each length field read only if the descriptor holds it
(30_encoding.md R68). -/
def requiredLength (f : Format) (desc : Bytes) : Except BadDescriptor Nat :=
  match f with
  | .seq =>
    match needBytes desc 5 with
    | .error e => .error e
    | .ok _ => .ok (5 + u32be desc 1)
  | .val => .ok 5
  | .dig =>
    match needBytes desc 2 with
    | .error e => .error e
    | .ok _ => .ok (2 + byteAt desc 1)
  | .pseq =>
    match needBytes desc 6 with
    | .error e => .error e
    | .ok _ => .ok (6 + u32be desc 2)
  | .bsj =>
    match needBytes desc 6 with
    | .error e => .error e
    | .ok _ =>
      match needBytes desc (10 + byteAt desc 5) with
      | .error e => .error e
      | .ok _ => .ok (10 + byteAt desc 5 + u32be desc (6 + byteAt desc 5))
  | .gt06 =>
    match needBytes desc 10 with
    | .error e => .error e
    | .ok _ => .ok (10 + u32be desc 6)

/-- A u32 value field at offset i, unsigned, not extended or scaled (30_encoding.md R67). -/
def valueField (desc : Bytes) (i : Nat) : Word32 := BitVec.ofNat 32 (u32be desc i)

/-- A one-byte field at offset i (30_encoding.md R67). -/
def byteField (desc : Bytes) (i : Nat) : Byte := BitVec.ofNat 8 (byteAt desc i)

/-- Operand assembly for each opcode's format (30_encoding.md R61 to R67). -/
def assembleOperands (op : Opcode) (desc : Bytes) : Instr :=
  match op with
  | .xor8 => .xor8 (substring desc 5 (u32be desc 1))
  | .crc16 => .crc16 (substring desc 5 (u32be desc 1))
  | .escape => .escape (substring desc 5 (u32be desc 1))
  | .packBe16 => .packBe16 (valueField desc 1)
  | .packBcd => .packBcd (substring desc 2 (byteAt desc 1))
  | .bsjLen => .bsjLen (valueField desc 1)
  | .gt06Len => .gt06Len (valueField desc 1)
  | .frame => .frame (byteField desc 1) (substring desc 6 (u32be desc 2))
  | .buildBsj =>
    .buildBsj (valueField desc 1) (substring desc 6 (byteAt desc 5))
      (substring desc (10 + byteAt desc 5) (u32be desc (6 + byteAt desc 5)))
  | .buildGt06 => .buildGt06 (valueField desc 1) (byteField desc 5) (substring desc 10 (u32be desc 6))

/-- The decoder: the structural check of 30_encoding.md R68, then operand assembly. -/
def decode (desc : Bytes) : Except BadDescriptor Instr :=
  match desc with
  | [] => .error .empty
  | b :: _ =>
    match opcodeOf b with
    | none => .error (.reservedOpcode b)
    | some op =>
      match requiredLength (formatOf op) desc with
      | .error e => .error e
      | .ok required =>
        if desc.length = required then .ok (assembleOperands op desc)
        else .error (.lengthMismatch required)

/-- A byte string behind its u32 length field (30_encoding.md R61). -/
def sized32 (s : Bytes) : Bytes := be32 (BitVec.ofNat 32 s.length) ++ s

/-- A digit string behind its u8 count (30_encoding.md R63). -/
def sized8 (s : Bytes) : Bytes := BitVec.ofNat 8 s.length :: s

/-- The descriptor of an instruction, every length field computed from the operand it precedes
(30_encoding.md R61 to R66, R76). -/
def encode : Instr → Bytes
  | .xor8 data => opcodeByte .xor8 :: sized32 data
  | .crc16 data => opcodeByte .crc16 :: sized32 data
  | .escape data => opcodeByte .escape :: sized32 data
  | .packBe16 v => opcodeByte .packBe16 :: be32 v
  | .packBcd digits => opcodeByte .packBcd :: sized8 digits
  | .bsjLen v => opcodeByte .bsjLen :: be32 v
  | .gt06Len v => opcodeByte .gt06Len :: be32 v
  | .frame p raw => opcodeByte .frame :: p :: sized32 raw
  | .buildBsj serial digits text =>
    opcodeByte .buildBsj :: (be32 serial ++ sized8 digits ++ sized32 text)
  | .buildGt06 serial lang text =>
    opcodeByte .buildGt06 :: (be32 serial ++ lang :: sized32 text)

/-- The length a row's bytes ask for when every byte the table does not give is zero: its format's fixed
fields, and the operands its length fields count (30_encoding.md R68). -/
def zeroFilledLength (bytes : Bytes) : Nat :=
  match (bytes.head?.bind opcodeOf).map formatOf with
  | none => bytes.length
  | some .seq => 5 + u32be bytes 1
  | some .val => 5
  | some .dig => 2 + byteAt bytes 1
  | some .pseq => 6 + u32be bytes 2
  | some .bsj => 10 + byteAt bytes 5 + u32be bytes (6 + byteAt bytes 5)
  | some .gt06 => 10 + u32be bytes 6

/-- The first `k` bytes of a number whose bit 0 is the least significant bit of the first byte. -/
def tableBytes : Nat → Nat → Bytes
  | 0, _ => []
  | k + 1, w => BitVec.ofNat 8 w :: tableBytes k (w / 256)

/-- The descriptor of an opcode-table row: its `nbits` bits as bytes, byte 0 first, then zero bytes up to the
length its fields ask for (log 10). -/
def tableDescriptor (nbits w : Nat) : Bytes :=
  let bytes := tableBytes (nbits / 8) w
  bytes ++ List.replicate (zeroFilledLength bytes - bytes.length) 0

/-- The instruction the decoder reads from an opcode-table row (log 10). -/
def decodeTableWord (nbits w : Nat) : Option Instr :=
  match decode (tableDescriptor nbits w) with
  | .ok i => some i
  | .error _ => none

end Sys2Proof
end

