-- ==== Sys2Proof/Config.lean ====
section
/-! DEFINITION. What an implementation fixes and what the spec leaves unspecified. Every constant here is
opaque: Lean can evaluate none of them, so a statement that holds, holds whatever their values are. -/

namespace Sys2Proof

/-- The value of the 16-bit working register `crc_state` between commands and after a reset: unspecified
(10_state.md R30; 93_implementation_defined.md U10 "any value"). The argument numbers the draw (log 5). -/
opaque Config.freeCrcState : Nat → Word16

/-- The value of the 8-bit working register `xor_acc` between commands and after a reset: unspecified
(10_state.md R30; U10). The argument numbers the draw (log 5). -/
opaque Config.freeXorAcc : Nat → Byte

/-- The value of the input cursor between commands and after a reset: unspecified (10_state.md R30; U10).
The argument numbers the draw (log 5, log 6). -/
opaque Config.freeCursor : Nat → Nat

/-- The content of the output buffer between commands and after a reset: unspecified (10_state.md R30;
U10). The argument numbers the draw (log 5). -/
opaque Config.freeOutBuf : Nat → Bytes

/-- How many instances the part has beyond the first: the open part of the parameter N_INSTANCES
(00_scope.md R8, U14, log 11). -/
opaque Config.extraInstances : Nat

/-- The parameter N_INSTANCES, at least 1 (00_scope.md R8; 92_eei_decisions.md D27). -/
def Config.nInstances : Nat := Config.extraInstances + 1

end Sys2Proof
end

