-- ==== Sys2Proof/Machine/Constants.lean ====
section
/-! DEFINITION. The read-only constants of the block: the CRC table ROM, the two FrameSpec descriptors and
the other wired constants of the frame builders (10_state.md R25 to R29). They are carried in State, so that
'no command writes them' is a property of the step and a part with another ROM (70_reset_and_hazards.md R226)
can be spoken of. -/

namespace Sys2Proof.Machine

/-- The trailer algorithms a FrameSpec names (10_state.md R27, R28; 43_framer.md R152). -/
inductive TrailerAlgorithm where
  /-- XOR8, 1 byte (R27). -/
  | xor8
  /-- CRC-16/X.25, 2 bytes big-endian (R28). -/
  | crc16X25
deriving DecidableEq, Repr

/-- The fields a RawFrame is laid out from (10_state.md R27, R28; 44_builder_bsj.md R161;
45_builder_gt06.md R173). -/
inductive FrameField where
  | messageId | bodyLength | phoneBcd | serial | body | packetLength | protocolNo | infoContent
deriving DecidableEq, Repr

/-- A FrameSpec: the per-protocol constant descriptor (10_state.md section 4; 00_scope.md R16). -/
structure FrameSpec where
  /-- The start delimiter bytes. -/
  start : Bytes
  /-- The stop delimiter bytes. -/
  stop : Bytes
  /-- The RawFrame's fields in order: the header layout of R27 and R28 with the body or the information
  content in its place. -/
  layout : List FrameField
  /-- The trailer algorithm, taken over the RawFrame. -/
  trailer : TrailerAlgorithm
  /-- Whether the RawFrame and its trailer are escaped. -/
  escaped : Bool
deriving DecidableEq, Repr

/-- All constants of 10_state.md R25 to R29. -/
structure Constants where
  /-- ROM_CRC, 256 entries of 16 bits (R25). -/
  crcRom : Vector Word16 256
  /-- The FrameSpec constant BSJ (R27). -/
  bsj : FrameSpec
  /-- The FrameSpec constant GT06 (R28). -/
  gt06 : FrameSpec
  /-- The BSJ message ID (R29). -/
  messageId : Word16
  /-- The BSJ body prefix byte, the zero flag byte (R29). -/
  bodyPrefix : Byte
  /-- The GT06 protocol number (R29). -/
  protocolNo : Byte
  /-- The GT06 server flag (R29). -/
  serverFlag : Word32
  /-- The GT06 language code of Chinese (R29). -/
  langChinese : Word16
  /-- The GT06 language code of English (R29). -/
  langEnglish : Word16
deriving DecidableEq, Repr

/-- BSJSpec (10_state.md R27). -/
def bsjSpec : FrameSpec where
  start := [0x7E]
  stop := [0x7E]
  layout := [.messageId, .bodyLength, .phoneBcd, .serial, .body]
  trailer := .xor8
  escaped := true

/-- GT06Spec (10_state.md R28). -/
def gt06Spec : FrameSpec where
  start := [0x78, 0x78]
  stop := [0x0D, 0x0A]
  layout := [.packetLength, .protocolNo, .infoContent, .serial]
  trailer := .crc16X25
  escaped := false

/-- The constants with the values 10_state.md R25 to R29 state. -/
def statedConstants : Constants where
  crcRom := crcTable
  bsj := bsjSpec
  gt06 := gt06Spec
  messageId := 0x8300
  bodyPrefix := 0x00
  protocolNo := 0x80
  serverFlag := 0x00000001
  langChinese := 0x0001
  langEnglish := 0x0002

end Sys2Proof.Machine
end

