-- ==== Sys2Proof/Machine/State.lean ====
section
/-! DEFINITION. The state of one block instance, the error kinds, the reasons a step can stop, and the state
after reset (10_state.md; 70_reset_and_hazards.md R220, R222). -/

namespace Sys2Proof.Machine

/-- The four error kinds of the block (60_exceptions.md R200). An error records its kind and nothing else. -/
inductive ErrorKind where
  /-- Malformed digit string, out-of-range serial, unsupported selector (R201). -/
  | invalidInput
  /-- A computed length field does not fit its slot (R202). -/
  | lengthOverflow
  /-- A GT06 text byte above 0x7F (R203). -/
  | encodingFailure
  /-- A descriptor that is not structurally valid (R204). -/
  | badCommand
deriving DecidableEq, Repr

/-- The port's state (10_state.md R24). `computing` and `holding` are both BUSY. -/
inductive Port where
  /-- IDLE: the block accepts a descriptor. -/
  | idle
  /-- BUSY: the descriptor is accepted and its response is not yet computed (R24). -/
  | computing (desc : Bytes)
  /-- BUSY: the response is computed and the host has not yet taken it (70_reset_and_hazards.md R225). -/
  | holding (response : Bytes)
deriving DecidableEq, Repr

/-- The working registers inside a command (10_state.md R30). No command reads a value they held before it
began, and what they hold between commands is unspecified (log 5). -/
structure Work where
  /-- `crc_state`, 16 bits. -/
  crcState : Word16
  /-- `xor_acc`, 8 bits. -/
  xorAcc : Byte
  /-- The input cursor over the operand bytes; the spec gives no width (log 6). -/
  cursor : Nat
  /-- The output buffer holding the response data built so far. -/
  outBuf : Bytes
deriving DecidableEq, Repr

/-- The state of one block instance and of the host's side of its port. -/
structure State where
  /-- The port (10_state.md R24), with the current descriptor or the held response while BUSY. -/
  port : Port
  /-- The working registers (10_state.md R30). -/
  work : Work
  /-- The read-only constants (10_state.md R25 to R29). -/
  consts : Constants
  /-- The descriptors the host has offered and the block has not accepted, oldest first
  (70_reset_and_hazards.md R225). -/
  offered : List Bytes
  /-- The host takes a response now (70_reset_and_hazards.md R225; log 2). -/
  hostTakes : Bool
  /-- The host asks for a reset (70_reset_and_hazards.md R221; log 3). -/
  resetLine : Bool
  /-- The responses the host has been delivered, oldest first (20_memory.md R51). -/
  delivered : List Bytes
  /-- The model's own counter of free values drawn (log 5). -/
  draws : Nat
deriving DecidableEq, Repr

/-- Why the machine can stop. Neither `step` nor `exec` answers a fault: the spec's errors are responses. -/
inductive Fault where
  /-- Raised only by `stepInstance` (Machine/Instances.lean), when it is asked to step an instance the part
  does not have. Safe: no transition is claimed for an instance that is not there. -/
  | noSuchInstance (k : Nat)
deriving DecidableEq, Repr

/-- Why an instruction can have no meaning. -/
inductive Refusal where
  /-- An instruction of the opcode table whose arm of `exec` is not modelled. No arm is refused, so nothing
  raises it. Safe: nothing can be proved of a refused instruction. -/
  | notModelled (mnemonic : String)
deriving DecidableEq, Repr

/-- The working registers as the model has them at reset. The spec leaves them unspecified
(10_state.md R32); zero is a DESIGN CHOICE, unsafe (log 5). -/
def resetWork : Work where
  crcState := 0
  xorAcc := 0
  cursor := 0
  outBuf := []

/-- The machine right after reset: the port IDLE and the constants at their stated values (10_state.md R32;
70_reset_and_hazards.md R220, R222); the rest as logs 2 to 5 say. -/
def State.reset : State where
  port := .idle
  work := resetWork
  consts := statedConstants
  offered := []
  hostTakes := true
  resetLine := false
  delivered := []
  draws := 0

end Sys2Proof.Machine
end

