-- ==== Sys2Proof/Machine/Flags.lean ====
section
/-! DEFINITION. The block has no status flags, condition codes or predicates (10_state.md R22); a command's
outcome is carried only by the status byte of its response. This file gives the status codes and the two
response forms (30_encoding.md R71, R72). -/

namespace Sys2Proof.Machine

/-- The status code OK (30_encoding.md R72). -/
def okStatus : Byte := 0x00

/-- The status code of each error kind (30_encoding.md R72). -/
def errorStatus : ErrorKind → Byte
  | .invalidInput => 0x01
  | .lengthOverflow => 0x02
  | .encodingFailure => 0x03
  | .badCommand => 0x04

/-- The response of a command that returned `data`: `[OK] ++ data` (30_encoding.md R71). -/
def okResponse (data : Bytes) : Bytes := okStatus :: data

/-- The response of a command that raised `e`: one byte, no data (30_encoding.md R71;
60_exceptions.md R205). -/
def errorResponse (e : ErrorKind) : Bytes := [errorStatus e]

/-- The response of a command with result `r`. -/
def responseOf : Except ErrorKind Bytes → Bytes
  | .ok data => okResponse data
  | .error e => errorResponse e

end Sys2Proof.Machine
end

