-- ==== Sys2Proof/Machine/Params.lean ====
section
/-! DEFINITION. The numeric parameters of 00_scope.md R8 that the rules name. -/

namespace Sys2Proof.Machine

/-- CRC_INIT (00_scope.md R8; 40_checksum_crc.md R104). -/
def crcInit : Word16 := 0xFFFF

/-- CRC_XOROUT: `NOT16(v) = v XOR 0xFFFF` (00_scope.md R8, R11). -/
def crcXorOut : Word16 := 0xFFFF

/-- The value the XOR-8 fold starts from (40_checksum_crc.md R101). -/
def xorInit : Byte := 0x00

/-- BCD_DIGITS (00_scope.md R8). -/
def bcdDigits : Nat := 12

/-- BSJ_BODY_LEN_MAX (00_scope.md R8). -/
def bsjBodyLenMax : Nat := 65535

/-- GT06_PACKET_LEN_MAX (00_scope.md R8). -/
def gt06PacketLenMax : Nat := 255

/-- GT06_CMD_LEN_MAX (00_scope.md R8). -/
def gt06CmdLenMax : Nat := 255

/-- SERIAL_MAX (00_scope.md R8). -/
def serialMax : Nat := 65535

/-- ESC_BYTE (00_scope.md R8). -/
def escByte : Byte := 0x7D

/-- FLAG_BYTE (00_scope.md R8). -/
def flagByte : Byte := 0x7E

/-- The second byte of the escape of FLAG_BYTE (42_escaper.md R141). -/
def escFlagCode : Byte := 0x02

/-- The second byte of the escape of ESC_BYTE (42_escaper.md R141). -/
def escEscCode : Byte := 0x01

/-- The greatest ASCII byte (45_builder_gt06.md R171). -/
def asciiMax : Nat := 0x7F

end Sys2Proof.Machine
end

