-- ==== Sys2Proof/Machine/Operands.lean ====
section
/-! DEFINITION. The operand forms that a command's rule checks: the protocol selector, the language selector,
the serial number, the digit string, the ASCII text (30_encoding.md R73, R74; 41_field_codec.md R123;
44_builder_bsj.md R163; 45_builder_gt06.md R171). Each answers the operand's value or raises its error. -/

namespace Sys2Proof.Machine

/-- The protocol selector `p` of format PSEQ (30_encoding.md R73). -/
def selectProtocol (c : Constants) (p : Byte) : Except ErrorKind FrameSpec :=
  if p = 0x00 then .ok c.bsj
  else if p = 0x01 then .ok c.gt06
  else .error .invalidInput

/-- The language selector `lang` of format GT06 (30_encoding.md R74). -/
def selectLanguage (c : Constants) (lang : Byte) : Except ErrorKind Word16 :=
  if lang = 0x01 then .ok c.langChinese
  else if lang = 0x02 then .ok c.langEnglish
  else .error .invalidInput

/-- The serial number: carried in 32 bits, legal 0 to 65535 (30_encoding.md R65, R66; 44_builder_bsj.md R160;
45_builder_gt06.md R170, check 1). -/
def checkSerial (serial : Word32) : Except ErrorKind Word16 :=
  if serial.toNat > serialMax then .error .invalidInput else .ok (serial.setWidth 16)

/-- An ASCII decimal digit, 0x30 to 0x39 (30_encoding.md R63; 41_field_codec.md R123). -/
def isDigit (b : Byte) : Bool := decide (0x30 ≤ b.toNat) && decide (b.toNat ≤ 0x39)

/-- The digit string: every byte a digit, at most 12 of them (41_field_codec.md R123). -/
def checkDigits (digits : Bytes) : Except ErrorKind Bytes :=
  if digits.all isDigit then
    if digits.length > bcdDigits then .error .invalidInput else .ok digits
  else .error .invalidInput

/-- An ASCII byte, 0x00 to 0x7F (45_builder_gt06.md R171). -/
def isAscii (b : Byte) : Bool := decide (b.toNat ≤ asciiMax)

/-- The GT06 text: every byte ASCII (45_builder_gt06.md R170, check 3). -/
def checkAscii (text : Bytes) : Except ErrorKind Bytes :=
  if text.all isAscii then .ok text else .error .encodingFailure

end Sys2Proof.Machine
end

