-- ==== Sys2Proof/Machine/Ops.lean ====
section
/-! DEFINITION. The named operations over the state: accepting a descriptor, ending a command with its
response, raising an error, delivering a held response, resetting. The block has no memory and no registers a
command could name (20_memory.md R40, 10_state.md R20), so these are all its state changes. -/

namespace Sys2Proof.Machine

/-- The working registers hold unspecified values: one fresh free value each (10_state.md R30, U10, log 5). The
values depend on the state's own counter alone, so two instances that have drawn equally often hold equal ones:
DESIGN CHOICE, unsafe (log 18). -/
def State.scrambleWork (s : State) : State :=
  { s with
    work :=
      { crcState := Config.freeCrcState s.draws
        xorAcc := Config.freeXorAcc s.draws
        cursor := Config.freeCursor s.draws
        outBuf := Config.freeOutBuf s.draws }
    draws := s.draws + 1 }

/-- In IDLE the block accepts one descriptor from the host and enters BUSY (10_state.md R24). -/
def State.accept (desc : Bytes) (rest : List Bytes) (s : State) : State :=
  { s with port := .computing desc, offered := rest }

/-- The response reaches the host whole and the port enters IDLE (10_state.md R24, 20_memory.md R49). -/
def State.deliver (response : Bytes) (s : State) : State :=
  { s with port := .idle, delivered := s.delivered ++ [response] }

/-- The block holds its response until it is taken (70_reset_and_hazards.md R225). -/
def State.hold (response : Bytes) (s : State) : State :=
  { s with port := .holding response }

/-- The port's move with a computed response: delivered if the host takes it, held if not
(10_state.md R24; 70_reset_and_hazards.md R225). -/
def State.release (response : Bytes) (s : State) : State :=
  if s.hostTakes then s.deliver response else s.hold response

/-- A command ends with its response, and leaves the working registers unspecified (10_state.md R24, R30). -/
def State.respond (response : Bytes) (s : State) : State :=
  s.scrambleWork.release response

/-- `return data`: the command ends with an OK response (00_scope.md R13). -/
def State.complete (data : Bytes) (s : State) : State :=
  s.respond (okResponse data)

/-- `raise E`, the block's whole exception entry: the command ends at once with a one-byte error response;
nothing is saved, no mode changes, control goes nowhere (00_scope.md R14; 60_exceptions.md R205, R207).
There is no return from it: the next command is accepted in IDLE as after any response (R208). -/
def State.raise (e : ErrorKind) (s : State) : State :=
  s.respond (errorResponse e)

/-- A command ends with its result: `return` or `raise`. -/
def State.conclude (result : Except ErrorKind Bytes) (s : State) : Host.Outcome State Fault Refusal :=
  match result with
  | .ok data => .next (s.complete data)
  | .error e => .next (s.raise e)

/-- Reset puts the port in IDLE, abandons a command in progress without a response, leaves the constants,
and leaves the working registers unspecified (70_reset_and_hazards.md R220, R221). The request is served. -/
def State.performReset (s : State) : State :=
  { s.scrambleWork with port := .idle, resetLine := false }

/-- The IDLE block's move: it accepts the oldest waiting descriptor, or waits (10_state.md R24; log 7). -/
def State.idleMove (s : State) : State :=
  match s.offered with
  | [] => s
  | desc :: rest => s.accept desc rest

/-- The move of a block that holds a response: it delivers it when the host takes it and otherwise goes on
holding it (70_reset_and_hazards.md R225; 93_implementation_defined.md U12, log 7). -/
def State.holdingMove (response : Bytes) (s : State) : State :=
  s.release response

end Sys2Proof.Machine
end

