-- ==== Sys2Proof/Machine/FieldPacker.lean ====
section
/-! DEFINITION. The field packer and the commands PACK_BE16, PACK_BCD, BSJ_LEN, GT06_LEN
(41_field_codec.md). -/

namespace Sys2Proof.Machine

/-- `pack_be16(v)` (41_field_codec.md R121). -/
def packBe16 (v : Word32) : Except ErrorKind Bytes :=
  if v.toNat > 0xFFFF then .error .invalidInput else .ok (be16 (v.setWidth 16))

/-- One BCD byte: the first digit of the pair in bits 7:4 (41_field_codec.md R123). -/
def bcdByte (hi lo : Byte) : Byte := (hi - 0x30) * 16 + (lo - 0x30)

/-- A digit string taken two digits at a time (41_field_codec.md R123). It is given an even count. -/
def bcdPairs : Bytes → Bytes
  | hi :: lo :: rest => bcdByte hi lo :: bcdPairs rest
  | _ => []

/-- Zero-padding on the left to 12 digits (41_field_codec.md R123). -/
def padDigits (digits : Bytes) : Bytes :=
  List.replicate (bcdDigits - digits.length) 0x30 ++ digits

/-- `bcd12(digits)`: 12 digits in 6 bytes (41_field_codec.md R123). -/
def bcd12 (digits : Bytes) : Except ErrorKind Bytes :=
  match checkDigits digits with
  | .ok d => .ok (bcdPairs (padDigits d))
  | .error e => .error e

/-- `bsj_len(v)`: the raw count over all 16 bits, no flag bits (41_field_codec.md R125; 90_conflicts.md C1). -/
def bsjLen (v : Nat) : Except ErrorKind Bytes :=
  if v > bsjBodyLenMax then .error .lengthOverflow else .ok (be16 (BitVec.ofNat 16 v))

/-- The packet length: protocol number, information content, serial number and CRC (41_field_codec.md R127). -/
def gt06PacketLength (v : Nat) : Nat := 1 + v + 2 + 2

/-- `gt06_len(v)` (41_field_codec.md R127). -/
def gt06Len (v : Nat) : Except ErrorKind Bytes :=
  if gt06PacketLength v > gt06PacketLenMax then .error .lengthOverflow
  else .ok [BitVec.ofNat 8 (gt06PacketLength v)]

/-- PACK_BE16 (41_field_codec.md R120). -/
def execPackBe16 (v : Word32) (s : State) : Host.Outcome State Fault Refusal :=
  s.conclude (packBe16 v)

/-- PACK_BCD (41_field_codec.md R122). -/
def execPackBcd (digits : Bytes) (s : State) : Host.Outcome State Fault Refusal :=
  s.conclude (bcd12 digits)

/-- BSJ_LEN (41_field_codec.md R124). -/
def execBsjLen (v : Word32) (s : State) : Host.Outcome State Fault Refusal :=
  s.conclude (bsjLen v.toNat)

/-- GT06_LEN (41_field_codec.md R126). -/
def execGt06Len (v : Word32) (s : State) : Host.Outcome State Fault Refusal :=
  s.conclude (gt06Len v.toNat)

end Sys2Proof.Machine
end

