-- ==== Sys2Proof/Machine/Checksum.lean ====
section
/-! DEFINITION. The Checksum/CRC engine: the XOR-8 checksum unit and the CRC-16/X.25 generator, and the
commands XOR8 and CRC16 (40_checksum_crc.md). -/

namespace Sys2Proof.Machine

/-- `xor8`: the exclusive-or fold of the input, starting from 0x00 (40_checksum_crc.md R101). -/
def xor8 (data : Bytes) : Byte := data.foldl (fun acc b => acc ^^^ b) xorInit

/-- One input byte's update of `crc_state`: `(crc_state >> 8) XOR ROM_CRC[(crc_state XOR b) AND 0xFF]`
(40_checksum_crc.md R104). -/
def crcUpdate (rom : Vector Word16 256) (crcState : Word16) (b : Byte) : Word16 :=
  (crcState >>> 8) ^^^ romRead rom ((crcState ^^^ b.setWidth 16).extractLsb' 0 8)

/-- `crc16_x25`: the table-driven CRC, complemented at the end (40_checksum_crc.md R104). -/
def crc16X25 (rom : Vector Word16 256) (data : Bytes) : Word16 :=
  data.foldl (crcUpdate rom) crcInit ^^^ crcXorOut

/-- XOR8: the response data is the one checksum byte (40_checksum_crc.md R100). -/
def execXor8 (data : Bytes) (s : State) : Host.Outcome State Fault Refusal :=
  s.conclude (.ok [xor8 data])

/-- CRC16: the response data is the CRC, high byte first (40_checksum_crc.md R103; 90_conflicts.md C3). -/
def execCrc16 (data : Bytes) (s : State) : Host.Outcome State Fault Refusal :=
  s.conclude (.ok (be16 (crc16X25 s.consts.crcRom data)))

end Sys2Proof.Machine
end

