-- ==== Sys2Proof/Machine/Escaper.lean ====
section
/-! DEFINITION. The byte-stuffing escaper and the command ESCAPE (42_escaper.md). -/

namespace Sys2Proof.Machine

/-- What one byte becomes (42_escaper.md R141). -/
def escapeByte (b : Byte) : Bytes :=
  if b = flagByte then [escByte, escFlagCode]
  else if b = escByte then [escByte, escEscCode]
  else [b]

/-- `escape`: each byte replaced independently, in order (42_escaper.md R141). -/
def escape (data : Bytes) : Bytes := data.flatMap escapeByte

/-- ESCAPE (42_escaper.md R140). -/
def execEscape (data : Bytes) (s : State) : Host.Outcome State Fault Refusal :=
  s.conclude (.ok (escape data))

end Sys2Proof.Machine
end

