-- ==== Sys2Proof/Machine/Framer.lean ====
section
/-! DEFINITION. The HDLC-like framer and the command FRAME (43_framer.md), and the assembly of a RawFrame
from a FrameSpec's layout (10_state.md R27, R28). -/

namespace Sys2Proof.Machine

/-- The trailer, over the unescaped RawFrame (43_framer.md R152). -/
def trailerBytes (c : Constants) (p : FrameSpec) (raw : Bytes) : Bytes :=
  match p.trailer with
  | .xor8 => [xor8 raw]
  | .crc16X25 => be16 (crc16X25 c.crcRom raw)

/-- `frame(P, raw)`: trailer first, then escaping where the protocol asks for it, delimiters outside
(43_framer.md R151; 90_conflicts.md C4). -/
def frame (c : Constants) (p : FrameSpec) (raw : Bytes) : Bytes :=
  let run := raw ++ trailerBytes c p raw
  p.start ++ (if p.escaped then escape run else run) ++ p.stop

/-- The bytes of each field of a RawFrame; a protocol's layout uses the fields it names. -/
structure FieldValues where
  messageId : Bytes := []
  bodyLength : Bytes := []
  phoneBcd : Bytes := []
  serial : Bytes := []
  body : Bytes := []
  packetLength : Bytes := []
  protocolNo : Bytes := []
  infoContent : Bytes := []
deriving DecidableEq, Repr

/-- The bytes of one field. -/
def fieldBytes (v : FieldValues) : FrameField → Bytes
  | .messageId => v.messageId
  | .bodyLength => v.bodyLength
  | .phoneBcd => v.phoneBcd
  | .serial => v.serial
  | .body => v.body
  | .packetLength => v.packetLength
  | .protocolNo => v.protocolNo
  | .infoContent => v.infoContent

/-- The RawFrame: the layout's fields one after the other (44_builder_bsj.md R161; 45_builder_gt06.md R173). -/
def assembleRaw (p : FrameSpec) (v : FieldValues) : Bytes := p.layout.flatMap (fieldBytes v)

/-- The result of FRAME (43_framer.md R150). -/
def frameResult (c : Constants) (p : Byte) (raw : Bytes) : Except ErrorKind Bytes :=
  match selectProtocol c p with
  | .ok spec => .ok (frame c spec raw)
  | .error e => .error e

/-- FRAME (43_framer.md R150). -/
def execFrame (p : Byte) (raw : Bytes) (s : State) : Host.Outcome State Fault Refusal :=
  s.conclude (frameResult s.consts p raw)

end Sys2Proof.Machine
end

