-- ==== Sys2Proof/Machine/BuilderBsj.lean ====
section
/-! DEFINITION. The BSJ frame builder and the command BUILD_BSJ (44_builder_bsj.md). -/

namespace Sys2Proof.Machine

/-- The BSJ body: the zero flag byte and the command text (44_builder_bsj.md R162). -/
def bsjBody (c : Constants) (text : Bytes) : Bytes := c.bodyPrefix :: text

/-- The BSJ RawFrame: header and body (44_builder_bsj.md R161). -/
def bsjRaw (c : Constants) (bodyLength phone : Bytes) (serial : Word16) (body : Bytes) : Bytes :=
  assembleRaw c.bsj
    { messageId := be16 c.messageId
      bodyLength := bodyLength
      phoneBcd := phone
      serial := be16 serial
      body := body }

/-- The result of BUILD_BSJ, its checks in the order of 44_builder_bsj.md R163: serial, phone, body length. -/
def buildBsjResult (c : Constants) (serial : Word32) (digits text : Bytes) : Except ErrorKind Bytes :=
  match checkSerial serial with
  | .error e => .error e
  | .ok sn =>
    match bcd12 digits with
    | .error e => .error e
    | .ok phone =>
      match bsjLen (bsjBody c text).length with
      | .error e => .error e
      | .ok blen => .ok (frame c c.bsj (bsjRaw c blen phone sn (bsjBody c text)))

/-- BUILD_BSJ (44_builder_bsj.md R160). -/
def execBuildBsj (serial : Word32) (digits text : Bytes) (s : State) :
    Host.Outcome State Fault Refusal :=
  s.conclude (buildBsjResult s.consts serial digits text)

end Sys2Proof.Machine
end

