-- ==== Sys2Proof/Machine/BuilderGt06.lean ====
section
/-! DEFINITION. The GT06 frame builder and the command BUILD_GT06 (45_builder_gt06.md). -/

namespace Sys2Proof.Machine

/-- The command-length byte's value: the server flag and the text (45_builder_gt06.md R172;
90_conflicts.md C2). -/
def gt06CmdLength (text : Bytes) : Nat := 4 + text.length

/-- The command-length check (45_builder_gt06.md R172). -/
def checkCmdLength (text : Bytes) : Except ErrorKind Byte :=
  if gt06CmdLength text > gt06CmdLenMax then .error .lengthOverflow
  else .ok (BitVec.ofNat 8 (gt06CmdLength text))

/-- The information content (45_builder_gt06.md R171). -/
def gt06Info (c : Constants) (cmdlen : Byte) (text : Bytes) (code : Word16) : Bytes :=
  [cmdlen] ++ be32 c.serverFlag ++ text ++ be16 code

/-- The GT06 RawFrame, the CRC span (45_builder_gt06.md R173). -/
def gt06Raw (c : Constants) (packetLength info : Bytes) (serial : Word16) : Bytes :=
  assembleRaw c.gt06
    { packetLength := packetLength
      protocolNo := [c.protocolNo]
      infoContent := info
      serial := be16 serial }

/-- The result of BUILD_GT06, its checks in the order of 45_builder_gt06.md R175: serial, language, text,
command length, packet length. -/
def buildGt06Result (c : Constants) (serial : Word32) (lang : Byte) (text : Bytes) :
    Except ErrorKind Bytes :=
  match checkSerial serial with
  | .error e => .error e
  | .ok sn =>
    match selectLanguage c lang with
    | .error e => .error e
    | .ok code =>
      match checkAscii text with
      | .error e => .error e
      | .ok ascii =>
        match checkCmdLength ascii with
        | .error e => .error e
        | .ok cmdlen =>
          match gt06Len (gt06Info c cmdlen ascii code).length with
          | .error e => .error e
          | .ok pl => .ok (frame c c.gt06 (gt06Raw c pl (gt06Info c cmdlen ascii code) sn))

/-- BUILD_GT06 (45_builder_gt06.md R170). -/
def execBuildGt06 (serial : Word32) (lang : Byte) (text : Bytes) (s : State) :
    Host.Outcome State Fault Refusal :=
  s.conclude (buildGt06Result s.consts serial lang text)

end Sys2Proof.Machine
end

