-- ==== Sys2Proof/Machine/Dispatch.lean ====
section
/-! DEFINITION. The meaning of each command, one arm per constructor of Instr (30_encoding.md R69). -/

namespace Sys2Proof.Machine

def exec (i : Instr) (s : State) : Host.Outcome State Fault Refusal :=
  match i with
  | .xor8 data => Sys2Proof.Machine.execXor8 data s
  | .crc16 data => Sys2Proof.Machine.execCrc16 data s
  | .escape data => Sys2Proof.Machine.execEscape data s
  | .packBe16 v => Sys2Proof.Machine.execPackBe16 v s
  | .packBcd digits => Sys2Proof.Machine.execPackBcd digits s
  | .bsjLen v => Sys2Proof.Machine.execBsjLen v s
  | .gt06Len v => Sys2Proof.Machine.execGt06Len v s
  | .frame p raw => Sys2Proof.Machine.execFrame p raw s
  | .buildBsj serial digits text => Sys2Proof.Machine.execBuildBsj serial digits text s
  | .buildGt06 serial lang text => Sys2Proof.Machine.execBuildGt06 serial lang text s

end Sys2Proof.Machine
end

