-- ==== Sys2Proof/Machine/Step.lean ====
section
/-! DEFINITION. One step of the block (10_state.md R24; 70_reset_and_hazards.md R220, R225), and where the
host of this pipeline places an instruction to run. -/

namespace Sys2Proof.Machine

/-- One step. A reset request is served first (log 3). An IDLE block accepts the oldest offered descriptor or
waits; a BUSY block runs the accepted descriptor, the structural check before anything else
(60_exceptions.md R204), or delivers the response it holds when the host takes it (log 1). -/
def step (s : State) : Host.Outcome State Fault Refusal :=
  if s.resetLine then .next s.performReset
  else
    match s.port with
    | .idle => .next s.idleMove
    | .computing desc =>
      match decode desc with
      | .ok i => exec i s
      | .error _ => .next (s.raise .badCommand)
    | .holding response => .next (s.holdingMove response)

/-- The block has just accepted the descriptor of an opcode-table row, and no reset is asked for: the very
next step runs it (log 4, log 10). -/
def State.withFetchWord (s : State) (nbits w : Nat) : State :=
  { s with port := .computing (tableDescriptor nbits w), resetLine := false }

end Sys2Proof.Machine
end

