-- ==== Sys2Proof/Machine/Assembler.lean ====
section
/-! DEFINITION. The host-side assembler of 30_encoding.md R76 to R78, from its operand forms to the
instruction and its descriptor. Lines are syntax trees: how a line's characters are split into tokens is not
stated (log 12). -/

namespace Sys2Proof.Machine

/-- `<bytes>` (30_encoding.md R76). -/
inductive BytesOperand where
  /-- Hex byte pairs in brackets. -/
  | hex (bytes : Bytes)
  /-- A double-quoted ASCII string. -/
  | quoted (text : List Char)
  /-- `rep(<byte>, <count>)`. -/
  | rep (b : Byte) (count : Nat)
deriving DecidableEq, Repr

/-- `<proto>` (30_encoding.md R76). -/
inductive ProtoOperand where
  | bsj
  | gt06
  | value (v : Nat)
deriving DecidableEq, Repr

/-- `<lang>` (30_encoding.md R76). -/
inductive LangOperand where
  | zh
  | en
  | value (v : Nat)
deriving DecidableEq, Repr

/-- One line of assembly; `<value>` operands are numbers, `<digits>` operands quoted strings (30_encoding.md
R76), with the pseudo-instructions ENCODE (R77) and CHECKSUM (R78). -/
inductive AsmLine where
  | xor8 (data : BytesOperand)
  | crc16 (data : BytesOperand)
  | escape (data : BytesOperand)
  | packBe16 (v : Nat)
  | packBcd (digits : List Char)
  | bsjLen (v : Nat)
  | gt06Len (v : Nat)
  | frame (proto : ProtoOperand) (raw : BytesOperand)
  | buildBsj (serial : Nat) (phone : List Char) (text : BytesOperand)
  | buildGt06 (serial : Nat) (lang : LangOperand) (text : BytesOperand)
  /-- `ENCODE bsj, phone=, serial=, text=` (R77). -/
  | encodeBsj (phone : List Char) (serial : Nat) (text : BytesOperand)
  /-- `ENCODE gt06, serial=, lang=, text=` (R77). -/
  | encodeGt06 (serial : Nat) (lang : LangOperand) (text : BytesOperand)
  /-- `ENCODE` with any other protocol name, which the assembler refuses (R77). -/
  | encodeOther (name : List Char)
  /-- `CHECKSUM bsj, <bytes>` (R78). -/
  | checksumBsj (data : BytesOperand)
  /-- `CHECKSUM gt06, <bytes>` (R78). -/
  | checksumGt06 (data : BytesOperand)
deriving DecidableEq, Repr

/-- The ASCII code of a character; a character with none is refused (log 12). -/
def asciiCode (ch : Char) : Option Byte :=
  if ch.toNat < 128 then some (BitVec.ofNat 8 ch.toNat) else none

/-- The ASCII codes of a quoted string. -/
def asciiBytes : List Char → Option Bytes
  | [] => some []
  | ch :: rest =>
    match asciiCode ch, asciiBytes rest with
    | some b, some bs => some (b :: bs)
    | _, _ => none

/-- The byte string a `<bytes>` operand writes. -/
def assembleBytes : BytesOperand → Option Bytes
  | .hex bytes => some bytes
  | .quoted text => asciiBytes text
  | .rep b count => some (List.replicate count b)

/-- A `<value>`, 0 to 2^32 - 1 (30_encoding.md R76). -/
def assembleValue (v : Nat) : Option Word32 :=
  if v < 2 ^ 32 then some (BitVec.ofNat 32 v) else none

/-- A `<value>` 0 to 255 (30_encoding.md R76). -/
def assembleByteValue (v : Nat) : Option Byte :=
  if v < 2 ^ 8 then some (BitVec.ofNat 8 v) else none

/-- The selector a `<proto>` operand writes (30_encoding.md R73, R76). -/
def assembleProto : ProtoOperand → Option Byte
  | .bsj => some 0x00
  | .gt06 => some 0x01
  | .value v => assembleByteValue v

/-- The selector a `<lang>` operand writes (30_encoding.md R74, R76). -/
def assembleLang : LangOperand → Option Byte
  | .zh => some 0x01
  | .en => some 0x02
  | .value v => assembleByteValue v

/-- The instruction a line writes, before its operands are held against the length fields. -/
def assembleUnchecked : AsmLine → Option Instr
  | .xor8 data => (assembleBytes data).map .xor8
  | .crc16 data => (assembleBytes data).map .crc16
  | .escape data => (assembleBytes data).map .escape
  | .packBe16 v => (assembleValue v).map .packBe16
  | .packBcd digits => (asciiBytes digits).map .packBcd
  | .bsjLen v => (assembleValue v).map .bsjLen
  | .gt06Len v => (assembleValue v).map .gt06Len
  | .frame proto raw =>
    (assembleProto proto).bind fun p => (assembleBytes raw).map fun r => .frame p r
  | .buildBsj serial phone text =>
    (assembleValue serial).bind fun sn =>
      (asciiBytes phone).bind fun d => (assembleBytes text).map fun t => .buildBsj sn d t
  | .buildGt06 serial lang text =>
    (assembleValue serial).bind fun sn =>
      (assembleLang lang).bind fun l => (assembleBytes text).map fun t => .buildGt06 sn l t
  | .encodeBsj phone serial text =>
    (assembleValue serial).bind fun sn =>
      (asciiBytes phone).bind fun d => (assembleBytes text).map fun t => .buildBsj sn d t
  | .encodeGt06 serial lang text =>
    (assembleValue serial).bind fun sn =>
      (assembleLang lang).bind fun l => (assembleBytes text).map fun t => .buildGt06 sn l t
  | .encodeOther _ => none
  | .checksumBsj data => (assembleBytes data).map .xor8
  | .checksumGt06 data => (assembleBytes data).map .crc16

/-- The instruction a line writes; none if an operand does not fit its field. -/
def assembleLine (line : AsmLine) : Option Instr :=
  (assembleUnchecked line).filter Instr.wf

/-- The descriptor a line writes (30_encoding.md R76, R79). -/
def assembleDescriptor (line : AsmLine) : Option Bytes := (assembleLine line).map encode

end Sys2Proof.Machine
end

