-- ==== Sys2Proof/Machine/Instances.lean ====
section
/-! DEFINITION. Several independent instances of the block (00_scope.md R8; 20_memory.md R56;
60_exceptions.md R213; log 11). Which instance moves next is the caller's choice, so every interleaving is a
list of choices. -/

namespace Sys2Proof.Machine

/-- A part with `n` instances right after reset: each its own port and working registers, all the same
constants (20_memory.md R56). The working registers, unspecified in each, are equal in all: DESIGN CHOICE, unsafe
(log 18). -/
def instancesReset (n : Nat) : List State := List.replicate n State.reset

/-- The part with N_INSTANCES instances right after reset (00_scope.md R8). -/
def partReset : List State := instancesReset Config.nInstances

/-- Instance `k` steps; the others do not move (20_memory.md R56). -/
def stepInstance (k : Nat) (part : List State) : Host.Outcome (List State) Fault Refusal :=
  match part[k]? with
  | none => .fault (.noSuchInstance k)
  | some s =>
    match step s with
    | .next t => .next (part.set k t)
    | .fault r => .fault r
    | .refused r => .refused r

/-- The instances step one after the other in the order of the list of choices. -/
def runInstances : List Nat → List State → Host.Outcome (List State) Fault Refusal
  | [], part => .next part
  | k :: rest, part =>
    match stepInstance k part with
    | .next part' => runInstances rest part'
    | .fault r => .fault r
    | .refused r => .refused r

end Sys2Proof.Machine
end

