-- ==== Sys2Proof/Machine/Reference.lean ====
section
/-! DEFINITION. Functions the spec defines beside the commands, for properties only: the reference inverses
(41_field_codec.md R128, 42_escaper.md R143), the table's generating rule (10_state.md R26), the bit-serial CRC
routine (40_checksum_crc.md R106) and the host's hex rendering (00_scope.md R17). No command calls them
(90_conflicts.md C5, C6). -/

namespace Sys2Proof.Machine

/-- `unpack_be16(s) = u16be(s, 0)` for a 2-byte s; no value otherwise (41_field_codec.md R128). -/
def unpackBe16 (s : Bytes) : Option Nat :=
  if s.length = 2 then some (u16be s 0) else none

/-- Both nibbles of a byte are decimal digits (41_field_codec.md R128). -/
def isBcdByte (b : Byte) : Bool := decide (b.toNat / 16 ≤ 9) && decide (b.toNat % 16 ≤ 9)

/-- The two ASCII digits of a BCD byte, high nibble first (41_field_codec.md R128). -/
def bcdDigitsOf (b : Byte) : Bytes :=
  [BitVec.ofNat 8 (0x30 + b.toNat / 16), BitVec.ofNat 8 (0x30 + b.toNat % 16)]

/-- `bcd_unpack(s)`, for a byte string whose every nibble is at most 9; no value otherwise
(41_field_codec.md R128). -/
def bcdUnpack (s : Bytes) : Option Bytes :=
  if s.all isBcdByte then some (s.flatMap bcdDigitsOf) else none

/-- The scan of 42_escaper.md R143, word for word: no value for a malformed escape, and every byte other than
0x7D copied, a bare 0x7E among them (log 16). -/
def unescapeScan : Bytes → Option Bytes
  | [] => some []
  | b :: rest =>
    if b = escByte then
      match rest with
      | [] => none
      | code :: rest' =>
        if code = escFlagCode then (unescapeScan rest').map (flagByte :: ·)
        else if code = escEscCode then (unescapeScan rest').map (escByte :: ·)
        else none
    else (unescapeScan rest).map (b :: ·)

/-- `unescape(t)`, the reference inverse of 42_escaper.md R143: its scan, on a string without a bare 0x7E. On one
that holds a 0x7E, which `escape` cannot produce, it has no value, as 93_implementation_defined.md U5 rules
('refuse') and 91_not_in_source.md N6 says. That this bounds the scan's copying is DEDUCED (log 16). -/
def unescape (t : Bytes) : Option Bytes :=
  if flagByte ∈ t then none else unescapeScan t

/-- `g(c)` of the table's generating rule (10_state.md R26). -/
def crcShift (c : Word16) : Word16 :=
  if c.getLsbD 0 then (c >>> 1) ^^^ 0x8408 else c >>> 1

/-- `n` applications of `g`. -/
def crcShifts : Nat → Word16 → Word16
  | 0, c => c
  | n + 1, c => crcShifts n (crcShift c)

/-- `crc16_x25_bitwise` (40_checksum_crc.md R106). -/
def crc16X25Bitwise (data : Bytes) : Word16 :=
  data.foldl (fun c b => crcShifts 8 (c ^^^ b.setWidth 16)) crcInit ^^^ crcXorOut

/-- A lower-case hexadecimal digit (00_scope.md R17). -/
def hexDigit (n : Nat) : Char :=
  if n < 10 then Char.ofNat (48 + n) else Char.ofNat (87 + n)

/-- `hex(s)`: two lower-case digits for each byte, no separators (00_scope.md R17). -/
def hexRender (s : Bytes) : List Char :=
  s.flatMap fun b => [hexDigit (b.toNat / 16), hexDigit (b.toNat % 16)]

end Sys2Proof.Machine
end

