-- ==== Sys2Proof/Machine/Serial.lean ====
section
/-! DEFINITION. The byte-serial implementation that 10_state.md R30 constrains: the working registers are
loaded by the command that uses them before its first use and updated once for each input byte. The commands
themselves are the pure functions of the rules; the statements say that the byte-serial units, started from any
working registers, compute the same. How the units are cut into loads and feeds, and the framer's one pass, are
the model's own: DESIGN CHOICE (log 17). -/

namespace Sys2Proof.Machine

/-- The start of an XOR-8 computation: `xor_acc` loaded with 0x00 (10_state.md R30, 40_checksum_crc.md R101). -/
def Work.loadXor (w : Work) : Work := { w with xorAcc := xorInit, cursor := 0 }

/-- One input byte of an XOR-8 computation (40_checksum_crc.md R101). -/
def Work.feedXor (w : Work) (b : Byte) : Work :=
  { w with xorAcc := w.xorAcc ^^^ b, cursor := w.cursor + 1 }

/-- The byte-serial XOR-8 unit over a byte string. -/
def Work.runXor (w : Work) (data : Bytes) : Work := data.foldl Work.feedXor w.loadXor

/-- The start of a CRC computation: `crc_state` loaded with 0xFFFF (10_state.md R30). -/
def Work.loadCrc (w : Work) : Work := { w with crcState := crcInit, cursor := 0 }

/-- One input byte of a CRC computation (40_checksum_crc.md R104). -/
def Work.feedCrc (rom : Vector Word16 256) (w : Work) (b : Byte) : Work :=
  { w with crcState := crcUpdate rom w.crcState b, cursor := w.cursor + 1 }

/-- The byte-serial CRC generator over a byte string, before the final complement. -/
def Work.runCrc (rom : Vector Word16 256) (w : Work) (data : Bytes) : Work :=
  data.foldl (Work.feedCrc rom) w.loadCrc

/-- The start of an output: the buffer empty (10_state.md R30). -/
def Work.loadOut (w : Work) : Work := { w with outBuf := [], cursor := 0 }

/-- One input byte of the escaper (42_escaper.md R141: no state beyond the output position). -/
def Work.feedEscape (w : Work) (b : Byte) : Work :=
  { w with outBuf := w.outBuf ++ escapeByte b, cursor := w.cursor + 1 }

/-- The byte-serial escaper over a byte string. -/
def Work.runEscape (w : Work) (data : Bytes) : Work := data.foldl Work.feedEscape w.loadOut

/-- Bytes on their way out of the framer: escaped where the protocol asks for it (43_framer.md R151). -/
def stuffed (p : FrameSpec) (s : Bytes) : Bytes := if p.escaped then escape s else s

/-- The start of a frame: both check registers loaded, the start delimiter written (43_framer.md R151). -/
def Work.openFrame (p : FrameSpec) (w : Work) : Work :=
  { w.loadXor.loadCrc.loadOut with outBuf := p.start }

/-- One RawFrame byte: it enters the trailer's computation as it is and the output stuffed
(43_framer.md R151, R152). -/
def Work.feedFrame (c : Constants) (p : FrameSpec) (w : Work) (b : Byte) : Work :=
  { crcState := crcUpdate c.crcRom w.crcState b
    xorAcc := w.xorAcc ^^^ b
    cursor := w.cursor + 1
    outBuf := w.outBuf ++ stuffed p [b] }

/-- The trailer as the check registers hold it at the end of the RawFrame (43_framer.md R152). -/
def Work.trailer (p : FrameSpec) (w : Work) : Bytes :=
  match p.trailer with
  | .xor8 => [w.xorAcc]
  | .crc16X25 => be16 (w.crcState ^^^ crcXorOut)

/-- The end of a frame: the trailer stuffed, then the stop delimiter (43_framer.md R151). -/
def Work.closeFrame (p : FrameSpec) (w : Work) : Work :=
  { w with outBuf := w.outBuf ++ stuffed p (w.trailer p) ++ p.stop }

/-- The byte-serial framer: one pass over the RawFrame, the model's own construction (DESIGN CHOICE, log 17). -/
def Work.runFrame (c : Constants) (p : FrameSpec) (w : Work) (raw : Bytes) : Work :=
  (raw.foldl (Work.feedFrame c p) (w.openFrame p)).closeFrame p

end Sys2Proof.Machine
end

