-- ==== Sys2Proof/Machine/HostPort.lean ====
section
/-! DEFINITION. What the host does at the port, and runs in which the block's steps and the host's actions
interleave in any order (70_reset_and_hazards.md R221, R225; 92_eei_decisions.md D32). -/

namespace Sys2Proof.Machine

/-- The host offers a descriptor: it waits behind those already offered, whatever the port's state
(70_reset_and_hazards.md R225). -/
def State.hostOffer (desc : Bytes) (s : State) : State := { s with offered := s.offered ++ [desc] }

/-- The host starts or stops taking responses (70_reset_and_hazards.md R225). -/
def State.hostSetTakes (takes : Bool) (s : State) : State := { s with hostTakes := takes }

/-- The host asks for a reset (70_reset_and_hazards.md R221). -/
def State.hostRequestReset (s : State) : State := { s with resetLine := true }

/-- One action at the port. -/
inductive PortAction where
  /-- The block steps. -/
  | block
  /-- The host offers a descriptor. -/
  | offer (desc : Bytes)
  /-- The host starts or stops taking responses. -/
  | setTakes (takes : Bool)
  /-- The host asks for a reset. -/
  | requestReset
deriving DecidableEq, Repr

/-- The effect of one action. -/
def act (a : PortAction) (s : State) : Host.Outcome State Fault Refusal :=
  match a with
  | .block => step s
  | .offer desc => .next (s.hostOffer desc)
  | .setTakes takes => .next (s.hostSetTakes takes)
  | .requestReset => .next s.hostRequestReset

/-- A run: the actions in order, stopping at the first fault or refusal. -/
def runActions : List PortAction → State → Host.Outcome State Fault Refusal
  | [], s => .next s
  | a :: rest, s =>
    match act a s with
    | .next t => runActions rest t
    | .fault r => .fault r
    | .refused r => .refused r

/-- The descriptors a list of actions offers, in order. -/
def offersOf : List PortAction → List Bytes
  | [] => []
  | .offer desc :: rest => desc :: offersOf rest
  | .block :: rest => offersOf rest
  | .setTakes _ :: rest => offersOf rest
  | .requestReset :: rest => offersOf rest

end Sys2Proof.Machine
end

