-- ==== Sys2Proof/Safety.lean ====
section
/-! DEFINITION. The terms the statements use: what it is for an outcome to answer a response, which responses
are well formed, and what the block owes the host. -/

namespace Sys2Proof.Machine

/-- The outcome is a next state in which the command of state `s` has ended with the response `r`: delivered
with the port IDLE if the host takes it (10_state.md R24), held if not (70_reset_and_hazards.md R225); and
everything else is as in `s`, but for the working registers and the model's counter of free values
(10_state.md R30). -/
def AnswersWith (s : State) (o : Host.Outcome State Fault Refusal) (r : Bytes) : Prop :=
  ∃ t : State, o = .next t ∧
    (s.hostTakes = true → t.port = .idle ∧ t.delivered = s.delivered ++ [r]) ∧
    (s.hostTakes = false → t.port = .holding r ∧ t.delivered = s.delivered) ∧
    t.consts = s.consts ∧ t.offered = s.offered ∧ t.hostTakes = s.hostTakes ∧
    t.resetLine = s.resetLine

/-- A response is `[OK] ++ data`, or exactly one byte, the status of an error kind (30_encoding.md R71, R72). -/
def ResponseForm (r : Bytes) : Prop :=
  (∃ data : Bytes, r = 0x00 :: data) ∨ r = [0x01] ∨ r = [0x02] ∨ r = [0x03] ∨ r = [0x04]

/-- Every response the block holds or has delivered has that form. -/
def ResponsesWellFormed (s : State) : Prop :=
  (∀ r ∈ s.delivered, ResponseForm r) ∧ (∀ r, s.port = .holding r → ResponseForm r)

/-- The result of each command as a function of the constants and its operands (00_scope.md R4). -/
def resultOf (c : Constants) : Instr → Except ErrorKind Bytes
  | .xor8 data => .ok [xor8 data]
  | .crc16 data => .ok (be16 (crc16X25 c.crcRom data))
  | .escape data => .ok (escape data)
  | .packBe16 v => packBe16 v
  | .packBcd digits => bcd12 digits
  | .bsjLen v => bsjLen v.toNat
  | .gt06Len v => gt06Len v.toNat
  | .frame p raw => frameResult c p raw
  | .buildBsj serial digits text => buildBsjResult c serial digits text
  | .buildGt06 serial lang text => buildGt06Result c serial lang text

/-- The response to a descriptor as a function of the constants and the descriptor alone
(60_exceptions.md R209). -/
def responseTo (c : Constants) (desc : Bytes) : Bytes :=
  match decode desc with
  | .ok i => responseOf (resultOf c i)
  | .error _ => errorResponse .badCommand

/-- The response of the command in progress, if there is one. -/
def inFlight (s : State) : List Bytes :=
  match s.port with
  | .idle => []
  | .computing desc => [responseTo s.consts desc]
  | .holding response => [response]

/-- All responses the host has been given and is still to be given, in order: those delivered, that of the
command in progress, those of the waiting commands (20_memory.md R51). -/
def owed (s : State) : List Bytes :=
  s.delivered ++ inFlight s ++ s.offered.map (responseTo s.consts)

/-- The digit string is malformed: a byte outside 0x30..0x39, or more than 12 digits (41_field_codec.md R122). -/
def DigitsMalformed (digits : Bytes) : Prop :=
  (∃ b ∈ digits, b.toNat < 0x30 ∨ 0x39 < b.toNat) ∨ 12 < digits.length

/-- The operands of a BUILD_BSJ that raise InvalidInput (44_builder_bsj.md R160). -/
def BsjInputInvalid (serial : Word32) (digits : Bytes) : Prop :=
  65535 < serial.toNat ∨ DigitsMalformed digits

/-- The operands of a BUILD_GT06 that raise InvalidInput (45_builder_gt06.md R170). -/
def Gt06InputInvalid (serial : Word32) (lang : Byte) : Prop :=
  65535 < serial.toNat ∨ (lang ≠ 0x01 ∧ lang ≠ 0x02)

/-- A number's two bytes, most significant first, written in arithmetic (00_scope.md R9, R12). -/
def twoBytes (n : Nat) : Bytes := [BitVec.ofNat 8 (n / 256), BitVec.ofNat 8 (n % 256)]

/-- The six BCD bytes of a digit string of at most 12 digits, written by the index formula of
41_field_codec.md R123. -/
def statedPhone (digits : Bytes) : Bytes :=
  let d := List.replicate (12 - digits.length) 0x30 ++ digits
  (List.range 6).map fun i =>
    BitVec.ofNat 8 ((byteAt d (2 * i) - 0x30) * 16 + (byteAt d (2 * i + 1) - 0x30))

/-- The BSJ RawFrame by the table of offsets of 44_builder_bsj.md R161 and R162. -/
def statedBsjRaw (serial : Word32) (digits text : Bytes) : Bytes :=
  [0x83, 0x00] ++ twoBytes (1 + text.length) ++ statedPhone digits ++ twoBytes serial.toNat ++
    [0x00] ++ text

/-- The GT06 RawFrame by the table of offsets of 45_builder_gt06.md R173 and R171; `code` is the language
code. -/
def statedGt06Raw (serial : Word32) (code : Nat) (text : Bytes) : Bytes :=
  [BitVec.ofNat 8 (text.length + 12), 0x80] ++
    ([BitVec.ofNat 8 (4 + text.length)] ++ [0x00, 0x00, 0x00, 0x01] ++ text ++ twoBytes code) ++
    twoBytes serial.toNat

/-- How many bytes of a string the escaper doubles: those equal to 0x7E or 0x7D (42_escaper.md R142). -/
def reservedCount (s : Bytes) : Nat := s.countP fun b => b == 0x7E || b == 0x7D

end Sys2Proof.Machine
end

