-- ==== Sys2Proof/Certificates/Slice0/Obligations.lean ====
section
/-! DEFINITION. The statements for the provers. Each docstring names the rule of spec/ it formalises. A
statement that says `AnswersWith s o r` says that the outcome is a next state, what the response is, and that
nothing else of the state changes but the working registers (10_state.md R30). -/

open Sys2Proof Sys2Proof.Machine

/-! ### Encoding -/

/-- Decode undoes encode on every well-formed instruction (30_encoding.md R61 to R68). -/
def Obligations.DecodeUndoesEncode : Prop :=
  ∀ i : Instr, i.wf = true → decode (encode i) = .ok i

/-- Every descriptor the decoder accepts is the encoding of the well-formed instruction it gives
(30_encoding.md R61 to R68): no descriptor byte is ignored. -/
def Obligations.EncodeUndoesDecode : Prop :=
  ∀ (desc : Bytes) (i : Instr), decode desc = .ok i → i.wf = true ∧ encode i = desc

/-- The structural check of 30_encoding.md R68: a descriptor decodes exactly if its opcode is assigned, it
holds its fields, and its length is the required length; any other raises BadCommand and nothing else. -/
def Obligations.StructuralCheckIsExact : Prop :=
  (∀ desc : Bytes, (∃ i, decode desc = .ok i) ↔
    ∃ (op : Byte) (rest : Bytes), desc = op :: rest ∧
      (((op = 0x01 ∨ op = 0x02 ∨ op = 0x03) ∧ 5 ≤ desc.length ∧ desc.length = 5 + u32be desc 1) ∨
       ((op = 0x10 ∨ op = 0x12 ∨ op = 0x13) ∧ desc.length = 5) ∨
       (op = 0x11 ∧ 2 ≤ desc.length ∧ desc.length = 2 + byteAt desc 1) ∨
       (op = 0x20 ∧ 6 ≤ desc.length ∧ desc.length = 6 + u32be desc 2) ∨
       (op = 0x30 ∧ 6 ≤ desc.length ∧ 10 + byteAt desc 5 ≤ desc.length ∧
         desc.length = 10 + byteAt desc 5 + u32be desc (6 + byteAt desc 5)) ∨
       (op = 0x31 ∧ 10 ≤ desc.length ∧ desc.length = 10 + u32be desc 6))) ∧
  (∀ (s : State) (desc : Bytes), s.resetLine = false → s.port = .computing desc →
    (¬ ∃ i, decode desc = .ok i) → AnswersWith s (step s) [0x04])

/-- The ten examples of 30_encoding.md R79, which the spec derives from R61 to R66 and R76: the assembler writes
these descriptors, and each decodes. -/
def Obligations.SpecExamplesAssembleAndDecode : Prop :=
  (assembleDescriptor (.xor8 (.hex [])) = some [0x01, 0x00, 0x00, 0x00, 0x00] ∧
    decode [0x01, 0x00, 0x00, 0x00, 0x00] = .ok (.xor8 [])) ∧
  (assembleDescriptor (.crc16 (.quoted ['1', '2', '3', '4', '5', '6', '7', '8', '9'])) =
      some [0x02, 0x00, 0x00, 0x00, 0x09, 0x31, 0x32, 0x33, 0x34, 0x35, 0x36, 0x37, 0x38, 0x39] ∧
    decode [0x02, 0x00, 0x00, 0x00, 0x09, 0x31, 0x32, 0x33, 0x34, 0x35, 0x36, 0x37, 0x38, 0x39] =
      .ok (.crc16 [0x31, 0x32, 0x33, 0x34, 0x35, 0x36, 0x37, 0x38, 0x39])) ∧
  (assembleDescriptor (.escape (.hex [0x7E])) = some [0x03, 0x00, 0x00, 0x00, 0x01, 0x7E] ∧
    decode [0x03, 0x00, 0x00, 0x00, 0x01, 0x7E] = .ok (.escape [0x7E])) ∧
  (assembleDescriptor (.packBe16 0x05F2) = some [0x10, 0x00, 0x00, 0x05, 0xF2] ∧
    decode [0x10, 0x00, 0x00, 0x05, 0xF2] = .ok (.packBe16 0x05F2)) ∧
  (assembleDescriptor (.packBcd ['3', '7', '0', '7', '0', '3']) =
      some [0x11, 0x06, 0x33, 0x37, 0x30, 0x37, 0x30, 0x33] ∧
    decode [0x11, 0x06, 0x33, 0x37, 0x30, 0x37, 0x30, 0x33] =
      .ok (.packBcd [0x33, 0x37, 0x30, 0x37, 0x30, 0x33])) ∧
  (assembleDescriptor (.bsjLen 4) = some [0x12, 0x00, 0x00, 0x00, 0x04] ∧
    decode [0x12, 0x00, 0x00, 0x00, 0x04] = .ok (.bsjLen 4)) ∧
  (assembleDescriptor (.gt06Len 13) = some [0x13, 0x00, 0x00, 0x00, 0x0D] ∧
    decode [0x13, 0x00, 0x00, 0x00, 0x0D] = .ok (.gt06Len 13)) ∧
  (assembleDescriptor (.frame .bsj (.hex [0x01, 0x02])) =
      some [0x20, 0x00, 0x00, 0x00, 0x00, 0x02, 0x01, 0x02] ∧
    decode [0x20, 0x00, 0x00, 0x00, 0x00, 0x02, 0x01, 0x02] = .ok (.frame 0x00 [0x01, 0x02])) ∧
  (assembleDescriptor (.buildBsj 1 ['3', '7', '0', '7', '0', '3'] (.quoted ['A', 'B', 'C'])) =
      some [0x30, 0x00, 0x00, 0x00, 0x01, 0x06, 0x33, 0x37, 0x30, 0x37, 0x30, 0x33, 0x00, 0x00, 0x00,
        0x03, 0x41, 0x42, 0x43] ∧
    decode [0x30, 0x00, 0x00, 0x00, 0x01, 0x06, 0x33, 0x37, 0x30, 0x37, 0x30, 0x33, 0x00, 0x00, 0x00,
        0x03, 0x41, 0x42, 0x43] =
      .ok (.buildBsj 1 [0x33, 0x37, 0x30, 0x37, 0x30, 0x33] [0x41, 0x42, 0x43])) ∧
  (assembleDescriptor (.buildGt06 0x05F2 .zh (.quoted ['W', 'H', 'E', 'R', 'E', '#'])) =
      some [0x31, 0x00, 0x00, 0x05, 0xF2, 0x01, 0x00, 0x00, 0x00, 0x06, 0x57, 0x48, 0x45, 0x52, 0x45,
        0x23] ∧
    decode [0x31, 0x00, 0x00, 0x05, 0xF2, 0x01, 0x00, 0x00, 0x00, 0x06, 0x57, 0x48, 0x45, 0x52, 0x45,
        0x23] =
      .ok (.buildGt06 0x05F2 0x01 [0x57, 0x48, 0x45, 0x52, 0x45, 0x23]))

/-- A reserved opcode answers BadCommand, whatever bytes follow it (30_encoding.md R70). -/
def Obligations.ReservedOpcodesAnswerBadCommand : Prop :=
  ∀ (s : State) (op : Byte) (rest : Bytes), s.resetLine = false → s.port = .computing (op :: rest) →
    (op.toNat = 0 ∨ (0x04 ≤ op.toNat ∧ op.toNat ≤ 0x0F) ∨ (0x14 ≤ op.toNat ∧ op.toNat ≤ 0x1F) ∨
      (0x21 ≤ op.toNat ∧ op.toNat ≤ 0x2F) ∨ 0x32 ≤ op.toNat) →
    AnswersWith s (step s) [0x04]

/-- Every descriptor the assembler writes is decoded to the instruction it was written from
(30_encoding.md R76). -/
def Obligations.AssembledDescriptorsDecode : Prop :=
  ∀ (line : AsmLine) (desc : Bytes), assembleDescriptor line = some desc →
    ∃ i, assembleLine line = some i ∧ decode desc = .ok i

/-- The pseudo-instructions expand as 30_encoding.md R77 and R78 say. -/
def Obligations.PseudoInstructionsExpand : Prop :=
  (∀ phone serial text,
    assembleLine (.encodeBsj phone serial text) = assembleLine (.buildBsj serial phone text)) ∧
  (∀ serial lang text,
    assembleLine (.encodeGt06 serial lang text) = assembleLine (.buildGt06 serial lang text)) ∧
  (∀ name, assembleLine (.encodeOther name) = none) ∧
  (∀ data, assembleLine (.checksumBsj data) = assembleLine (.xor8 data)) ∧
  (∀ data, assembleLine (.checksumGt06 data) = assembleLine (.crc16 data))

/-! ### The port -/

/-- A step runs the decoded instruction: with a descriptor accepted and no reset asked for, the step is `exec`
of what the descriptor decodes to (10_state.md R21, R24). -/
def Obligations.StepRunsTheDecodedCommand : Prop :=
  ∀ (s : State) (desc : Bytes) (i : Instr), s.resetLine = false → s.port = .computing desc →
    decode desc = .ok i → step s = exec i s

/-- The IDLE block accepts the oldest offered descriptor and enters BUSY (10_state.md R24). With nothing
offered the step changes nothing: the model's choice (log 7). -/
def Obligations.IdleBlockAcceptsOldestOffer : Prop :=
  (∀ (s : State) (desc : Bytes) (rest : List Bytes), s.resetLine = false → s.port = .idle →
    s.offered = desc :: rest → step s = .next { s with port := .computing desc, offered := rest }) ∧
  (∀ s : State, s.resetLine = false → s.port = .idle → s.offered = [] → step s = .next s)

/-- A held response is delivered when the host takes it, and the port enters IDLE; until then the block goes on
holding it (70_reset_and_hazards.md R225, U12). That the waiting step is a next state is the model's choice
(log 7). -/
def Obligations.HeldResponseWaitsForTheHost : Prop :=
  ∀ (s : State) (r : Bytes), s.resetLine = false → s.port = .holding r →
    (s.hostTakes = true →
      step s = .next { s with port := .idle, delivered := s.delivered ++ [r] }) ∧
    (s.hostTakes = false → step s = .next s)

/-- While BUSY no step accepts a command: the waiting offers stay as they are, none lost, merged or reordered
(10_state.md R24, 70_reset_and_hazards.md R225). -/
def Obligations.BusyBlockAcceptsNoCommand : Prop :=
  ∀ s t : State, s.port ≠ .idle → step s = .next t →
    t.offered = s.offered ∧ ∀ desc, t.port ≠ .computing desc

/-- Reset puts the port in IDLE and does nothing else: the constants, the waiting offers, the delivered
responses stay, and a command in progress gets no response (70_reset_and_hazards.md R220, R221). That the
request is served before any other move, and then cleared, is the model's choice (log 3). -/
def Obligations.ResetOnlyIdlesThePort : Prop :=
  ∀ s : State, s.resetLine = true →
    ∃ t, step s = .next t ∧ t.port = .idle ∧ t.consts = s.consts ∧ t.offered = s.offered ∧
      t.delivered = s.delivered ∧ t.hostTakes = s.hostTakes ∧ t.resetLine = false

/-- A command abandoned by a reset and issued again yields the response the abandoned one would have
(70_reset_and_hazards.md R221). That the reset is served by the next step is the model's choice (log 3). -/
def Obligations.RetryAfterResetAnswersTheSame : Prop :=
  ∀ (s : State) (desc : Bytes), s.port = .computing desc → s.resetLine = true →
    ∃ (t : State) (r : Bytes), step s = .next t ∧ t.delivered = s.delivered ∧
      AnswersWith { s with resetLine := false } (step { s with resetLine := false }) r ∧
      AnswersWith { t with port := .computing desc } (step { t with port := .computing desc }) r

/-- After reset the port is IDLE and the constants hold the values 10_state.md R25 to R29 state; no step, a
reset or a command, writes them; whatever the working registers hold, each descriptor then gets the same response
(10_state.md R32). -/
def Obligations.ResetStateAndConstants : Prop :=
  State.reset.port = .idle ∧
  State.reset.consts.crcRom = crcTable ∧
  State.reset.consts.bsj =
    { start := [0x7E], stop := [0x7E],
      layout := [.messageId, .bodyLength, .phoneBcd, .serial, .body],
      trailer := .xor8, escaped := true } ∧
  State.reset.consts.gt06 =
    { start := [0x78, 0x78], stop := [0x0D, 0x0A],
      layout := [.packetLength, .protocolNo, .infoContent, .serial],
      trailer := .crc16X25, escaped := false } ∧
  State.reset.consts.messageId = 0x8300 ∧ State.reset.consts.bodyPrefix = 0x00 ∧
  State.reset.consts.protocolNo = 0x80 ∧ State.reset.consts.serverFlag = 0x00000001 ∧
  State.reset.consts.langChinese = 0x0001 ∧ State.reset.consts.langEnglish = 0x0002 ∧
  (∀ s t : State, step s = .next t → t.consts = s.consts) ∧
  (∀ desc : Bytes, ∃ r, ∀ (w : Work) (draws : Nat) (s : State),
    s = { State.reset with port := .computing desc, work := w, draws := draws } → AnswersWith s (step s) r)

/-- The generating rule of the CRC table and its spot checks (10_state.md R26; the rule and the table are general
knowledge of the spec's, log 8). -/
def Obligations.RomFollowsItsGeneratingRule : Prop :=
  (∀ i : Byte, romRead crcTable i = crcShifts 8 (i.setWidth 16)) ∧
  (∀ c : Word16, crcShift c = if c.getLsbD 0 = true then (c >>> 1) ^^^ 0x8408 else c >>> 1) ∧
  romRead crcTable 0x01 = 0x1189 ∧ romRead crcTable 0x80 = 0x8408 ∧ romRead crcTable 0xFF = 0x0F78

/-- Every response held or delivered keeps its form on every step: a status byte of 30_encoding.md R72, with
data only after OK (R71). -/
def Obligations.StepKeepsResponsesWellFormed : Prop :=
  ∀ s t : State, ResponsesWellFormed s → step s = .next t → ResponsesWellFormed t

/-- The state after reset holds and has delivered no response, so every response in it has that form
(30_encoding.md R71). That nothing is delivered yet is the model's choice (log 4). -/
def Obligations.ResetResponsesWellFormed : Prop := ResponsesWellFormed State.reset

/-- Every step answers a next state: the block raises errors only in responses, transfers control nowhere and
every command terminates (60_exceptions.md R205, R207; 70_reset_and_hazards.md R229). That a waiting block also
answers a next state is the model's choice (log 7). -/
def Obligations.EveryStepAnswersANextState : Prop := ∀ s : State, ∃ t, step s = .next t

/-- Every command, in every state, answers exactly one well-formed response and changes nothing else but the
working registers (20_memory.md R48, R49; 30_encoding.md R71, R72). -/
def Obligations.EveryCommandOnlyAnswers : Prop :=
  ∀ (i : Instr) (s : State), ∃ r, ResponseForm r ∧ AnswersWith s (exec i s) r

/-- The response is a function of the descriptor alone (60_exceptions.md R209): two commands with equal
descriptors, on instances with the same constants, receive equal responses, whatever else their states hold, the
working registers (10_state.md R30) among it. -/
def Obligations.ResponseDependsOnDescriptorAlone : Prop :=
  ∀ (s u : State) (desc : Bytes), s.resetLine = false → u.resetLine = false →
    s.port = .computing desc → u.port = .computing desc → s.consts = u.consts →
    ∃ r, AnswersWith s (step s) r ∧ AnswersWith u (step u) r

/-- The ledger of responses: without a reset, whatever the host offers and whenever it takes, no response is
lost, repeated or reordered. After any interleaving, the responses delivered, in progress and still waiting for
their commands to run are those of before, followed by the responses to the new offers (20_memory.md R51;
70_reset_and_hazards.md R225). That they are delivered is `Obligations.WaitingCommandsAreAllAnswered`. -/
def Obligations.RunsLoseRepeatOrReorderNoResponse : Prop :=
  ∀ (acts : List PortAction) (s : State), s.resetLine = false → PortAction.requestReset ∉ acts →
    ∃ t, runActions acts s = .next t ∧ t.consts = s.consts ∧
      owed t = owed s ++ (offersOf acts).map (responseTo s.consts)

/-- Resets lose the response of the command in progress and no other: a served reset takes exactly that one out
of the ledger, every other step and every action of the host keeps the ledger but for a new offer's response at
its end, and over a run what remains is in order and what was delivered stays delivered (20_memory.md R49, R51;
70_reset_and_hazards.md R221). That the request is served before any other move, that waiting offers survive it,
and that an untaken response is lost with it, are the model's choices (log 3). -/
def Obligations.ResetsLoseOnlyAbandonedResponses : Prop :=
  (∀ s : State, s.resetLine = true →
    ∃ t, step s = .next t ∧ owed t = s.delivered ++ s.offered.map (responseTo s.consts)) ∧
  (∀ s : State, s.resetLine = false → ∃ t, step s = .next t ∧ owed t = owed s) ∧
  (∀ (a : PortAction) (s : State), a ≠ .block →
    ∃ t, act a s = .next t ∧ owed t = owed s ++ (offersOf [a]).map (responseTo s.consts)) ∧
  (∀ (acts : List PortAction) (s : State),
    ∃ t, runActions acts s = .next t ∧ t.consts = s.consts ∧
      (owed t).Sublist (owed s ++ (offersOf acts).map (responseTo s.consts)) ∧
      s.delivered <+: t.delivered)

/-- Every waiting command is answered: an IDLE block with a host that takes its responses answers all offers, in
order, in two steps each (70_reset_and_hazards.md R229; two steps each is the model's granularity, log 1). -/
def Obligations.WaitingCommandsAreAllAnswered : Prop :=
  ∀ s : State, s.resetLine = false → s.port = .idle → s.hostTakes = true →
    ∃ t : State, Host.Core.run Sys2Proof.core (2 * s.offered.length) s = .next t ∧ t.port = .idle ∧
      t.offered = [] ∧ t.delivered = s.delivered ++ s.offered.map (responseTo s.consts) ∧
      t.consts = s.consts

/-- Instances are independent: two of them may step in either order, with the same outcome, and a step of one
leaves every other as it was (20_memory.md R56). -/
def Obligations.InstancesAreIndependent : Prop :=
  (∀ (part : List State) (j k : Nat), j < part.length → k < part.length → j ≠ k →
    ∃ part', runInstances [j, k] part = .next part' ∧ runInstances [k, j] part = .next part') ∧
  (∀ (part part' : List State) (k : Nat) (s : State), part[k]? = some s →
    stepInstance k part = .next part' →
    (∃ t, step s = .next t ∧ part'[k]? = some t) ∧ ∀ j, j ≠ k → part'[j]? = part[j]?)

/-! ### Checksums -/

/-- XOR8 completes with the exclusive-or fold of its bytes (40_checksum_crc.md R100, R101). -/
def Obligations.Xor8AnswersTheFold : Prop :=
  ∀ (data : Bytes) (s : State),
    AnswersWith s (exec (.xor8 data) s) [0x00, data.foldl (fun acc b => acc ^^^ b) 0x00]

/-- The XOR-8 laws of 40_checksum_crc.md R102, which the spec derives from R101. -/
def Obligations.Xor8Laws : Prop :=
  xor8 [] = 0x00 ∧
  (∀ s t : Bytes, xor8 (s ++ t) = xor8 s ^^^ xor8 t) ∧
  (∀ s : Bytes, xor8 (s ++ [xor8 s]) = 0x00) ∧
  (∀ s t : Bytes, s.Perm t → xor8 s = xor8 t)

/-- CRC16 completes with the table-driven CRC of its bytes, high byte first (40_checksum_crc.md R103, R104;
20_memory.md R43). -/
def Obligations.Crc16AnswersTheTableDrivenCrc : Prop :=
  ∀ (data : Bytes) (s : State) (crc : Word16),
    crc = ~~~(data.foldl (fun (st : Word16) (b : Byte) =>
      (st >>> 8) ^^^ romRead s.consts.crcRom (((st ^^^ b.setWidth 16) &&& 0xFF).setWidth 8)) 0xFFFF) →
    AnswersWith s (exec (.crc16 data) s)
      [0x00, BitVec.ofNat 8 (crc.toNat / 256), BitVec.ofNat 8 (crc.toNat % 256)]

/-- The table-driven CRC with the stated ROM and the bit-serial routine agree on every input
(40_checksum_crc.md R106). -/
def Obligations.TableDrivenCrcIsBitSerialCrc : Prop :=
  ∀ data : Bytes, crc16X25Bitwise data = crc16X25 crcTable data

/-- The check values of 40_checksum_crc.md R107, which the spec derives from R104 and the table of 10_state.md R25. -/
def Obligations.CrcCheckValues : Prop :=
  crc16X25 crcTable [] = 0x0000 ∧
  crc16X25 crcTable [0x31, 0x32, 0x33, 0x34, 0x35, 0x36, 0x37, 0x38, 0x39] = 0x906E ∧
  crc16X25 crcTable [0x00] = 0xF078 ∧ crc16X25 crcTable [0xFF] = 0xFF00 ∧
  crc16X25 crcTable [0x01] = 0xE1F1 ∧ crc16X25 crcTable [0x41] = 0xA3F5

/-- A part whose ROM differs in any entry computes some GT06 frame wrong, and without any error
(70_reset_and_hazards.md R226). -/
def Obligations.DivergentRomIsSilentlyWrong : Prop :=
  ∀ (s : State) (rom : Vector Word16 256) (j : Byte), s.consts = { statedConstants with crcRom := rom } →
    romRead rom j ≠ romRead crcTable j →
    ∃ raw f : Bytes, AnswersWith s (exec (.frame 0x01 raw) s) (0x00 :: f) ∧
      f ≠ [0x78, 0x78] ++ raw ++ be16 (crc16X25 crcTable raw) ++ [0x0D, 0x0A]

/-- The byte-serial units that 10_state.md R30 constrains compute the checksum, the CRC and the escaped string
from any working registers, with the cursor past the input. That the cursor is a number without a bound is the
model's choice (log 6), and so is the cut of the units into loads and feeds (log 17). -/
def Obligations.ByteSerialUnitsComputeTheFunctions : Prop :=
  ∀ (w : Work) (rom : Vector Word16 256) (data : Bytes),
    (w.runXor data).xorAcc = xor8 data ∧ (w.runXor data).cursor = data.length ∧
    (w.runCrc rom data).crcState ^^^ 0xFFFF = crc16X25 rom data ∧
    (w.runCrc rom data).cursor = data.length ∧
    (w.runEscape data).outBuf = escape data ∧ (w.runEscape data).cursor = data.length

/-- The byte-serial framer, one pass over the RawFrame from any working registers, writes the frame of
43_framer.md R151 (10_state.md R30). The one-pass framer is the model's own construction (log 17). -/
def Obligations.ByteSerialFramerWritesTheFrame : Prop :=
  ∀ (c : Constants) (p : FrameSpec) (w : Work) (raw : Bytes),
    (w.runFrame c p raw).outBuf = frame c p raw

/-! ### Escaping -/

/-- ESCAPE completes with every byte replaced independently, in order (42_escaper.md R140, R141). -/
def Obligations.EscapeAnswersTheStuffedBytes : Prop :=
  ∀ (data : Bytes) (s : State),
    AnswersWith s (exec (.escape data) s)
      (0x00 :: data.flatMap fun b =>
        if b = 0x7E then [0x7D, 0x02] else if b = 0x7D then [0x7D, 0x01] else [b])

/-- The escaper laws of 42_escaper.md R142, which the spec derives from R141. -/
def Obligations.EscaperLaws : Prop :=
  (∀ s : Bytes, (escape s).length = s.length + reservedCount s) ∧
  (∀ s : Bytes, 0x7E ∉ escape s) ∧
  (∀ (s : Bytes) (i : Nat), (escape s)[i]? = some 0x7D →
    (escape s)[i + 1]? = some 0x01 ∨ (escape s)[i + 1]? = some 0x02) ∧
  (∀ s t : Bytes, escape (s ++ t) = escape s ++ escape t) ∧
  (∀ s : Bytes, 0x7E ∉ s → 0x7D ∉ s → escape s = s) ∧
  escape [0x7E] = [0x7D, 0x02] ∧ escape [0x7D] = [0x7D, 0x01]

/-- The reference inverse of 42_escaper.md R143: how it scans, and that it and the escaper are inverse to each
other. It has no value on a string that the escaper cannot produce (93_implementation_defined.md U5). That U5
bounds the scan's copying of a bare 0x7E is the model's reading of the two (log 16). -/
def Obligations.UnescapeInvertsEscape : Prop :=
  (unescapeScan [] = some []) ∧
  (∀ (b : Byte) (t : Bytes), b ≠ 0x7D → unescapeScan (b :: t) = (unescapeScan t).map (b :: ·)) ∧
  (∀ t : Bytes, unescapeScan (0x7D :: 0x02 :: t) = (unescapeScan t).map (0x7E :: ·)) ∧
  (∀ t : Bytes, unescapeScan (0x7D :: 0x01 :: t) = (unescapeScan t).map (0x7D :: ·)) ∧
  (∀ (b : Byte) (t : Bytes), b ≠ 0x01 → b ≠ 0x02 → unescapeScan (0x7D :: b :: t) = none) ∧
  (unescapeScan [0x7D] = none) ∧
  (∀ s : Bytes, unescapeScan (escape s) = some s) ∧
  (∀ t s : Bytes, unescapeScan t = some s → 0x7E ∉ t → escape s = t) ∧
  (∀ t : Bytes, 0x7E ∉ t → unescape t = unescapeScan t) ∧
  (∀ t : Bytes, 0x7E ∈ t → unescape t = none) ∧
  (∀ t s : Bytes, unescape t = some s ↔ t = escape s)

/-- Escaping before the checksum is taken, the wrong order, gives a wrong checksum exactly if an odd number of
bytes is escaped (70_reset_and_hazards.md R223; 90_conflicts.md C7). -/
def Obligations.ChecksumAfterEscapingDiffers : Prop :=
  ∀ s : Bytes, xor8 (escape s) ≠ xor8 s ↔ reservedCount s % 2 = 1

/-! ### Field packer -/

/-- PACK_BE16 completes with the two bytes, high byte first, and raises InvalidInput above 0xFFFF
(41_field_codec.md R120, R121). -/
def Obligations.PackBe16AnswersTwoBytes : Prop :=
  ∀ (v : Word32) (s : State),
    (v.toNat ≤ 0xFFFF → AnswersWith s (exec (.packBe16 v) s) (0x00 :: twoBytes v.toNat)) ∧
    (0xFFFF < v.toNat → AnswersWith s (exec (.packBe16 v) s) [0x01])

/-- PACK_BCD completes with the six BCD bytes of a digit string of at most 12 digits, and raises InvalidInput
for any other (41_field_codec.md R122, R123). -/
def Obligations.PackBcdAnswersSixBytes : Prop :=
  ∀ (digits : Bytes) (s : State),
    (¬ DigitsMalformed digits →
      AnswersWith s (exec (.packBcd digits) s) (0x00 :: statedPhone digits)) ∧
    (DigitsMalformed digits → AnswersWith s (exec (.packBcd digits) s) [0x01])

/-- The reference inverses restore what the packer packs, with the left zero padding, and the packed bytes never
need escaping (41_field_codec.md R122, R128). -/
def Obligations.PackedFieldsUnpack : Prop :=
  (∀ v : Word16, unpackBe16 (be16 v) = some v.toNat) ∧
  (∀ digits : Bytes, ¬ DigitsMalformed digits →
    ∃ out, bcd12 digits = .ok out ∧ out.length = 6 ∧
      bcdUnpack out = some (List.replicate (12 - digits.length) 0x30 ++ digits) ∧
      0x7D ∉ out ∧ 0x7E ∉ out)

/-- BSJ_LEN completes with the raw count over all 16 bits, and raises LengthOverflow above 65535
(41_field_codec.md R124, R125). -/
def Obligations.BsjLenAnswersTheRawCount : Prop :=
  ∀ (v : Word32) (s : State),
    (v.toNat ≤ 65535 → AnswersWith s (exec (.bsjLen v) s) (0x00 :: twoBytes v.toNat)) ∧
    (65535 < v.toNat → AnswersWith s (exec (.bsjLen v) s) [0x02])

/-- GT06_LEN completes with the packet length 1 + v + 2 + 2 in one byte, and raises LengthOverflow if that is
above 255 (41_field_codec.md R126, R127). -/
def Obligations.Gt06LenAnswersThePacketLength : Prop :=
  ∀ (v : Word32) (s : State),
    (1 + v.toNat + 2 + 2 ≤ 255 →
      AnswersWith s (exec (.gt06Len v) s) [0x00, BitVec.ofNat 8 (1 + v.toNat + 2 + 2)]) ∧
    (255 < 1 + v.toNat + 2 + 2 → AnswersWith s (exec (.gt06Len v) s) [0x02])

/-! ### Framer -/

/-- FRAME completes for both protocols, the trailer taken before escaping and the delimiters outside, and raises
InvalidInput for any other selector (43_framer.md R150 to R152; 30_encoding.md R73). -/
def Obligations.FrameAnswersTheFrame : Prop :=
  ∀ (p : Byte) (raw : Bytes) (s : State), s.consts = statedConstants →
    (p = 0x00 → AnswersWith s (exec (.frame p raw) s)
      (0x00 :: ([0x7E] ++ escape (raw ++ [xor8 raw]) ++ [0x7E]))) ∧
    (p = 0x01 → AnswersWith s (exec (.frame p raw) s)
      (0x00 :: ([0x78, 0x78] ++ (raw ++ twoBytes (crc16X25 crcTable raw).toNat) ++ [0x0D, 0x0A]))) ∧
    (p ≠ 0x00 → p ≠ 0x01 → AnswersWith s (exec (.frame p raw) s) [0x01])

/-- The framer laws of 43_framer.md R153, which the spec derives from R151 and R152, with the stated
constants. -/
def Obligations.FramerLaws : Prop :=
  (∀ raw f : Bytes, f = frame statedConstants bsjSpec raw →
    f = [0x7E] ++ escape (raw ++ [xor8 raw]) ++ [0x7E] ∧
    (∀ i, f[i]? = some 0x7E ↔ i = 0 ∨ i + 1 = f.length) ∧
    2 ≤ f.length ∧
    f.length = raw.length + 3 + reservedCount (raw ++ [xor8 raw]) ∧
    unescape (substring f 1 (f.length - 2)) = some (raw ++ [xor8 raw]) ∧
    xor8 (raw ++ [xor8 raw]) = 0x00) ∧
  (∀ raw f : Bytes, f = frame statedConstants gt06Spec raw →
    f = [0x78, 0x78] ++ raw ++ be16 (crc16X25 crcTable raw) ++ [0x0D, 0x0A] ∧
    f.length = raw.length + 6) ∧
  (∀ (serial : Word32) (lang : Byte) (text f : Bytes),
    buildGt06Result statedConstants serial lang text = .ok f → f.length = byteAt f 2 + 5)

/-! ### Frame builder, BSJ -/

/-- BUILD_BSJ completes with the frame of the RawFrame of 44_builder_bsj.md R161 whenever its operands are in
range (R160). -/
def Obligations.BuildBsjAnswersTheFrame : Prop :=
  ∀ (serial : Word32) (digits text raw : Bytes) (s : State), s.consts = statedConstants →
    ¬ BsjInputInvalid serial digits → 1 + text.length ≤ 65535 →
    raw = statedBsjRaw serial digits text →
    AnswersWith s (exec (.buildBsj serial digits text) s)
      (0x00 :: ([0x7E] ++ escape (raw ++ [xor8 raw]) ++ [0x7E]))

/-- The error order of BUILD_BSJ: InvalidInput, then LengthOverflow (44_builder_bsj.md R163). -/
def Obligations.BuildBsjErrorOrder : Prop :=
  ∀ (serial : Word32) (digits text : Bytes) (s : State),
    (BsjInputInvalid serial digits → AnswersWith s (exec (.buildBsj serial digits text) s) [0x01]) ∧
    (¬ BsjInputInvalid serial digits → 65535 < 1 + text.length →
      AnswersWith s (exec (.buildBsj serial digits text) s) [0x02])

/-- The BSJ frame size of 44_builder_bsj.md R164, which the spec derives from R161 and R162. -/
def Obligations.BsjFrameSize : Prop :=
  ∀ (serial : Word32) (digits text raw f : Bytes),
    buildBsjResult statedConstants serial digits text = .ok f →
    raw = statedBsjRaw serial digits text →
    f.length = text.length + 16 + reservedCount (raw ++ [xor8 raw])

/-- A BUILD_BSJ frame is FRAME of the RawFrame composed from the primitive commands' results
(92_eei_decisions.md D31; 95_test_vectors.md P2). -/
def Obligations.BuildBsjIsItsPrimitivesComposed : Prop :=
  ∀ (serial : Word32) (digits text r1 r2 r3 : Bytes),
    packBe16 serial = .ok r1 → bcd12 digits = .ok r2 → bsjLen (1 + text.length) = .ok r3 →
    buildBsjResult statedConstants serial digits text =
      frameResult statedConstants 0x00 ([0x83, 0x00] ++ r3 ++ r2 ++ r1 ++ ([0x00] ++ text))

/-! ### Frame builder, GT06 -/

/-- BUILD_GT06 completes with the frame of the RawFrame of 45_builder_gt06.md R173 whenever its operands are in
range (R170): the language selectors 0x01 and 0x02 give the codes 0x0001 and 0x0002. -/
def Obligations.BuildGt06AnswersTheFrame : Prop :=
  ∀ (serial : Word32) (lang : Byte) (text raw : Bytes) (s : State), s.consts = statedConstants →
    ¬ Gt06InputInvalid serial lang → (∀ b ∈ text, b.toNat ≤ 0x7F) → text.length + 12 ≤ 255 →
    raw = statedGt06Raw serial (if lang = 0x01 then 0x0001 else 0x0002) text →
    AnswersWith s (exec (.buildGt06 serial lang text) s)
      (0x00 :: ([0x78, 0x78] ++ raw ++ twoBytes (crc16X25 crcTable raw).toNat ++ [0x0D, 0x0A]))

/-- The error order of BUILD_GT06: InvalidInput, EncodingFailure, LengthOverflow (45_builder_gt06.md R175). -/
def Obligations.BuildGt06ErrorOrder : Prop :=
  ∀ (serial : Word32) (lang : Byte) (text : Bytes) (s : State),
    (Gt06InputInvalid serial lang → AnswersWith s (exec (.buildGt06 serial lang text) s) [0x01]) ∧
    (¬ Gt06InputInvalid serial lang → (∃ b ∈ text, 0x7F < b.toNat) →
      AnswersWith s (exec (.buildGt06 serial lang text) s) [0x03]) ∧
    (¬ Gt06InputInvalid serial lang → (∀ b ∈ text, b.toNat ≤ 0x7F) → 255 < text.length + 12 →
      AnswersWith s (exec (.buildGt06 serial lang text) s) [0x02])

/-- The GT06 frame size of 45_builder_gt06.md R174, which the spec derives from R171 and R173. -/
def Obligations.Gt06FrameSize : Prop :=
  ∀ (serial : Word32) (lang : Byte) (text f : Bytes),
    buildGt06Result statedConstants serial lang text = .ok f →
    f.length = text.length + 17 ∧ f.length = byteAt f 2 + 5

/-- The document's GT06 literal (95_test_vectors.md V-L1-1), from its descriptor to its frame and the host's hex
rendering of it (00_scope.md R17). -/
def Obligations.Gt06DocumentLiteral : Prop :=
  ∀ s : State, s.resetLine = false → s.consts = statedConstants →
    s.port = .computing [0x31, 0x00, 0x00, 0x05, 0xF2, 0x01, 0x00, 0x00, 0x00, 0x06, 0x57, 0x48, 0x45, 0x52,
      0x45, 0x23] →
    ∃ f : Bytes, AnswersWith s (step s) (0x00 :: f) ∧
      f = [0x78, 0x78, 0x12, 0x80, 0x0A, 0x00, 0x00, 0x00, 0x01, 0x57, 0x48, 0x45, 0x52, 0x45, 0x23, 0x00,
        0x01, 0x05, 0xF2, 0xA2, 0x22, 0x0D, 0x0A] ∧
      hexRender f =
        ['7', '8', '7', '8', '1', '2', '8', '0', '0', 'a', '0', '0', '0', '0', '0', '0', '0', '1', '5', '7',
          '4', '8', '4', '5', '5', '2', '4', '5', '2', '3', '0', '0', '0', '1', '0', '5', 'f', '2', 'a', '2',
          '2', '2', '0', 'd', '0', 'a']

/-! ### Errors over all commands -/

/-- InvalidInput is raised exactly by the commands and operands of the table of 60_exceptions.md R201. -/
def Obligations.InvalidInputRaisedExactly : Prop :=
  ∀ (i : Instr) (s : State), AnswersWith s (exec i s) [0x01] ↔
    match i with
    | .xor8 _ => False
    | .crc16 _ => False
    | .escape _ => False
    | .packBe16 v => 0xFFFF < v.toNat
    | .packBcd digits => DigitsMalformed digits
    | .bsjLen _ => False
    | .gt06Len _ => False
    | .frame p _ => p ≠ 0x00 ∧ p ≠ 0x01
    | .buildBsj serial digits _ => 65535 < serial.toNat ∨ DigitsMalformed digits
    | .buildGt06 serial lang _ => 65535 < serial.toNat ∨ (lang ≠ 0x01 ∧ lang ≠ 0x02)

/-- LengthOverflow is raised exactly by the commands and operands of the table of 60_exceptions.md R202, where
no error before it in the order of R206 is raised. -/
def Obligations.LengthOverflowRaisedExactly : Prop :=
  ∀ (i : Instr) (s : State), AnswersWith s (exec i s) [0x02] ↔
    match i with
    | .xor8 _ => False
    | .crc16 _ => False
    | .escape _ => False
    | .packBe16 _ => False
    | .packBcd _ => False
    | .bsjLen v => 65535 < v.toNat
    | .gt06Len v => 255 < 1 + v.toNat + 2 + 2
    | .frame _ _ => False
    | .buildBsj serial digits text => ¬ BsjInputInvalid serial digits ∧ 65535 < 1 + text.length
    | .buildGt06 serial lang text =>
      ¬ Gt06InputInvalid serial lang ∧ (∀ b ∈ text, b.toNat ≤ 0x7F) ∧
        (255 < 4 + text.length ∨ 255 < text.length + 12)

/-- EncodingFailure is raised exactly by BUILD_GT06 for a text byte above 0x7F (60_exceptions.md R203), where no
error before it in the order of R206 is raised. -/
def Obligations.EncodingFailureRaisedExactly : Prop :=
  ∀ (i : Instr) (s : State), AnswersWith s (exec i s) [0x03] ↔
    ∃ serial lang text, i = .buildGt06 serial lang text ∧ ¬ Gt06InputInvalid serial lang ∧
      ∃ b ∈ text, 0x7F < b.toNat

/-- BadCommand is the answer exactly to the descriptors that fail the structural check (60_exceptions.md
R204). -/
def Obligations.BadCommandRaisedExactly : Prop :=
  ∀ (s : State) (desc : Bytes), s.resetLine = false → s.port = .computing desc →
    (AnswersWith s (step s) [0x04] ↔ ∃ e, decode desc = .error e)
end

