-- ==== Sys2Proof/Laws/Bytes.lean ====
section
/-! SUPPORT. Reading back what the big-endian helpers write, and reading past a prefix
(00_scope.md R12). -/

namespace Sys2Proof.Machine

@[simp] theorem be16_length (v : Word16) : (be16 v).length = 2 := rfl

@[simp] theorem be32_length (v : Word32) : (be32 v).length = 4 := rfl

@[simp] theorem byteAt_cons_zero (b : Byte) (s : Bytes) : byteAt (b :: s) 0 = b.toNat := rfl

@[simp] theorem byteAt_cons_succ (b : Byte) (s : Bytes) (i : Nat) :
    byteAt (b :: s) (i + 1) = byteAt s i := rfl

theorem byteAt_lt (s : Bytes) (i : Nat) : byteAt s i < 256 := (s.getD i 0).isLt

theorem u32be_lt (s : Bytes) (i : Nat) : u32be s i < 2 ^ 32 := by
  have h0 := byteAt_lt s i
  have h1 := byteAt_lt s (i + 1)
  have h2 := byteAt_lt s (i + 2)
  have h3 := byteAt_lt s (i + 3)
  unfold u32be
  omega

theorem byteAt_append_add (s t : Bytes) (i : Nat) : byteAt (s ++ t) (s.length + i) = byteAt t i := by
  simp [byteAt, List.getD_eq_getElem?_getD, List.getElem?_append_right]

/-- Reading a u32 behind a string skips the string. -/
theorem u32be_append_add (s t : Bytes) (i : Nat) : u32be (s ++ t) (s.length + i) = u32be t i := by
  simp only [u32be, Nat.add_assoc, byteAt_append_add]

@[simp] theorem u32be_cons_succ (b : Byte) (s : Bytes) (i : Nat) : u32be (b :: s) (i + 1) = u32be s i := rfl

/-- Reading a u32 field gives the value that was written. -/
theorem u32be_be32_append (v : Word32) (s : Bytes) : u32be (be32 v ++ s) 0 = v.toNat := by
  have h := v.isLt
  simp only [u32be, be32, List.cons_append, List.nil_append, byteAt, List.getD_cons_zero,
    List.getD_cons_succ, Nat.zero_add, BitVec.extractLsb'_toNat, Nat.shiftRight_eq_div_pow]
  omega

/-- Reading the length field of a string that fits it gives the string's length. -/
theorem u32be_sized32 (s t : Bytes) (h : s.length < 2 ^ 32) :
    u32be (sized32 s ++ t) 0 = s.length := by
  rw [sized32, List.append_assoc, u32be_be32_append, BitVec.toNat_ofNat, Nat.mod_eq_of_lt h]

@[simp] theorem sized32_length (s : Bytes) : (sized32 s).length = 4 + s.length := by
  simp [sized32]

@[simp] theorem sized8_length (s : Bytes) : (sized8 s).length = 1 + s.length := by
  simp [sized8, Nat.add_comm]

/-- A substring that starts behind a prefix. -/
theorem substring_append_add (s t : Bytes) (i n : Nat) :
    substring (s ++ t) (s.length + i) n = substring t i n := by
  simp [substring, ← List.drop_drop]

@[simp] theorem substring_cons_succ (b : Byte) (s : Bytes) (i n : Nat) :
    substring (b :: s) (i + 1) n = substring s i n := rfl

@[simp] theorem substring_zero_append_length (s t : Bytes) :
    substring (s ++ t) 0 s.length = s := by
  simp [substring]

/-- `need m` passes on a string of at least m bytes (30_encoding.md R68). -/
theorem needBytes_of_le (desc : Bytes) (m : Nat) (h : m ≤ desc.length) :
    needBytes desc m = .ok () := by
  rw [needBytes, if_neg (by omega)]

/-- `need m` fails on a shorter string (30_encoding.md R68). -/
theorem needBytes_of_lt (desc : Bytes) (m : Nat) (h : desc.length < m) :
    needBytes desc m = .error (.tooShort m) := by
  rw [needBytes, if_pos h]

/-- Writing a u32 field gives back the four bytes that were read. -/
theorem be32_u32be (a b c d : Byte) (s : Bytes) :
    be32 (BitVec.ofNat 32 (u32be (a :: b :: c :: d :: s) 0)) = [a, b, c, d] := by
  have ha := a.isLt
  have hb := b.isLt
  have hc := c.isLt
  have hd := d.isLt
  obtain ⟨n, hn⟩ : ∃ n, n = u32be (a :: b :: c :: d :: s) 0 := ⟨_, rfl⟩
  have h : n = 2 ^ 24 * a.toNat + 2 ^ 16 * b.toNat + 2 ^ 8 * c.toNat + d.toNat := hn
  rw [← hn]
  have e0 : (BitVec.ofNat 32 n).extractLsb' 24 8 = a := by
    apply BitVec.eq_of_toNat_eq
    rw [BitVec.extractLsb'_toNat, BitVec.toNat_ofNat, Nat.shiftRight_eq_div_pow]
    omega
  have e1 : (BitVec.ofNat 32 n).extractLsb' 16 8 = b := by
    apply BitVec.eq_of_toNat_eq
    rw [BitVec.extractLsb'_toNat, BitVec.toNat_ofNat, Nat.shiftRight_eq_div_pow]
    omega
  have e2 : (BitVec.ofNat 32 n).extractLsb' 8 8 = c := by
    apply BitVec.eq_of_toNat_eq
    rw [BitVec.extractLsb'_toNat, BitVec.toNat_ofNat, Nat.shiftRight_eq_div_pow]
    omega
  have e3 : (BitVec.ofNat 32 n).extractLsb' 0 8 = d := by
    apply BitVec.eq_of_toNat_eq
    rw [BitVec.extractLsb'_toNat, BitVec.toNat_ofNat, Nat.shiftRight_eq_div_pow]
    omega
  rw [be32, e0, e1, e2, e3]

end Sys2Proof.Machine
end

