-- ==== Sys2Proof/Laws/State.lean ====
section
/-! SUPPORT. One lemma per field per update of State, true by rfl, so that no later proof unfolds a record
update. -/

namespace Sys2Proof.Machine

@[simp] theorem State.scrambleWork_port (s : State) :
    s.scrambleWork.port = s.port := rfl

@[simp] theorem State.scrambleWork_work (s : State) :
    s.scrambleWork.work = ⟨Config.freeCrcState s.draws, Config.freeXorAcc s.draws,
      Config.freeCursor s.draws, Config.freeOutBuf s.draws⟩ := rfl

@[simp] theorem State.scrambleWork_consts (s : State) :
    s.scrambleWork.consts = s.consts := rfl

@[simp] theorem State.scrambleWork_offered (s : State) :
    s.scrambleWork.offered = s.offered := rfl

@[simp] theorem State.scrambleWork_hostTakes (s : State) :
    s.scrambleWork.hostTakes = s.hostTakes := rfl

@[simp] theorem State.scrambleWork_resetLine (s : State) :
    s.scrambleWork.resetLine = s.resetLine := rfl

@[simp] theorem State.scrambleWork_delivered (s : State) :
    s.scrambleWork.delivered = s.delivered := rfl

@[simp] theorem State.scrambleWork_draws (s : State) :
    s.scrambleWork.draws = s.draws + 1 := rfl

@[simp] theorem State.accept_port (desc : Bytes) (rest : List Bytes) (s : State) :
    (s.accept desc rest).port = .computing desc := rfl

@[simp] theorem State.accept_work (desc : Bytes) (rest : List Bytes) (s : State) :
    (s.accept desc rest).work = s.work := rfl

@[simp] theorem State.accept_consts (desc : Bytes) (rest : List Bytes) (s : State) :
    (s.accept desc rest).consts = s.consts := rfl

@[simp] theorem State.accept_offered (desc : Bytes) (rest : List Bytes) (s : State) :
    (s.accept desc rest).offered = rest := rfl

@[simp] theorem State.accept_hostTakes (desc : Bytes) (rest : List Bytes) (s : State) :
    (s.accept desc rest).hostTakes = s.hostTakes := rfl

@[simp] theorem State.accept_resetLine (desc : Bytes) (rest : List Bytes) (s : State) :
    (s.accept desc rest).resetLine = s.resetLine := rfl

@[simp] theorem State.accept_delivered (desc : Bytes) (rest : List Bytes) (s : State) :
    (s.accept desc rest).delivered = s.delivered := rfl

@[simp] theorem State.accept_draws (desc : Bytes) (rest : List Bytes) (s : State) :
    (s.accept desc rest).draws = s.draws := rfl

@[simp] theorem State.deliver_port (r : Bytes) (s : State) :
    (s.deliver r).port = .idle := rfl

@[simp] theorem State.deliver_work (r : Bytes) (s : State) :
    (s.deliver r).work = s.work := rfl

@[simp] theorem State.deliver_consts (r : Bytes) (s : State) :
    (s.deliver r).consts = s.consts := rfl

@[simp] theorem State.deliver_offered (r : Bytes) (s : State) :
    (s.deliver r).offered = s.offered := rfl

@[simp] theorem State.deliver_hostTakes (r : Bytes) (s : State) :
    (s.deliver r).hostTakes = s.hostTakes := rfl

@[simp] theorem State.deliver_resetLine (r : Bytes) (s : State) :
    (s.deliver r).resetLine = s.resetLine := rfl

@[simp] theorem State.deliver_delivered (r : Bytes) (s : State) :
    (s.deliver r).delivered = s.delivered ++ [r] := rfl

@[simp] theorem State.deliver_draws (r : Bytes) (s : State) :
    (s.deliver r).draws = s.draws := rfl

@[simp] theorem State.hold_port (r : Bytes) (s : State) :
    (s.hold r).port = .holding r := rfl

@[simp] theorem State.hold_work (r : Bytes) (s : State) :
    (s.hold r).work = s.work := rfl

@[simp] theorem State.hold_consts (r : Bytes) (s : State) :
    (s.hold r).consts = s.consts := rfl

@[simp] theorem State.hold_offered (r : Bytes) (s : State) :
    (s.hold r).offered = s.offered := rfl

@[simp] theorem State.hold_hostTakes (r : Bytes) (s : State) :
    (s.hold r).hostTakes = s.hostTakes := rfl

@[simp] theorem State.hold_resetLine (r : Bytes) (s : State) :
    (s.hold r).resetLine = s.resetLine := rfl

@[simp] theorem State.hold_delivered (r : Bytes) (s : State) :
    (s.hold r).delivered = s.delivered := rfl

@[simp] theorem State.hold_draws (r : Bytes) (s : State) :
    (s.hold r).draws = s.draws := rfl

@[simp] theorem State.performReset_port (s : State) :
    s.performReset.port = .idle := rfl

@[simp] theorem State.performReset_work (s : State) :
    s.performReset.work = ⟨Config.freeCrcState s.draws, Config.freeXorAcc s.draws,
      Config.freeCursor s.draws, Config.freeOutBuf s.draws⟩ := rfl

@[simp] theorem State.performReset_consts (s : State) :
    s.performReset.consts = s.consts := rfl

@[simp] theorem State.performReset_offered (s : State) :
    s.performReset.offered = s.offered := rfl

@[simp] theorem State.performReset_hostTakes (s : State) :
    s.performReset.hostTakes = s.hostTakes := rfl

@[simp] theorem State.performReset_resetLine (s : State) :
    s.performReset.resetLine = false := rfl

@[simp] theorem State.performReset_delivered (s : State) :
    s.performReset.delivered = s.delivered := rfl

@[simp] theorem State.performReset_draws (s : State) :
    s.performReset.draws = s.draws + 1 := rfl

@[simp] theorem State.hostOffer_port (desc : Bytes) (s : State) :
    (s.hostOffer desc).port = s.port := rfl

@[simp] theorem State.hostOffer_work (desc : Bytes) (s : State) :
    (s.hostOffer desc).work = s.work := rfl

@[simp] theorem State.hostOffer_consts (desc : Bytes) (s : State) :
    (s.hostOffer desc).consts = s.consts := rfl

@[simp] theorem State.hostOffer_offered (desc : Bytes) (s : State) :
    (s.hostOffer desc).offered = s.offered ++ [desc] := rfl

@[simp] theorem State.hostOffer_hostTakes (desc : Bytes) (s : State) :
    (s.hostOffer desc).hostTakes = s.hostTakes := rfl

@[simp] theorem State.hostOffer_resetLine (desc : Bytes) (s : State) :
    (s.hostOffer desc).resetLine = s.resetLine := rfl

@[simp] theorem State.hostOffer_delivered (desc : Bytes) (s : State) :
    (s.hostOffer desc).delivered = s.delivered := rfl

@[simp] theorem State.hostOffer_draws (desc : Bytes) (s : State) :
    (s.hostOffer desc).draws = s.draws := rfl

@[simp] theorem State.hostSetTakes_port (b : Bool) (s : State) :
    (s.hostSetTakes b).port = s.port := rfl

@[simp] theorem State.hostSetTakes_work (b : Bool) (s : State) :
    (s.hostSetTakes b).work = s.work := rfl

@[simp] theorem State.hostSetTakes_consts (b : Bool) (s : State) :
    (s.hostSetTakes b).consts = s.consts := rfl

@[simp] theorem State.hostSetTakes_offered (b : Bool) (s : State) :
    (s.hostSetTakes b).offered = s.offered := rfl

@[simp] theorem State.hostSetTakes_hostTakes (b : Bool) (s : State) :
    (s.hostSetTakes b).hostTakes = b := rfl

@[simp] theorem State.hostSetTakes_resetLine (b : Bool) (s : State) :
    (s.hostSetTakes b).resetLine = s.resetLine := rfl

@[simp] theorem State.hostSetTakes_delivered (b : Bool) (s : State) :
    (s.hostSetTakes b).delivered = s.delivered := rfl

@[simp] theorem State.hostSetTakes_draws (b : Bool) (s : State) :
    (s.hostSetTakes b).draws = s.draws := rfl

@[simp] theorem State.hostRequestReset_port (s : State) :
    s.hostRequestReset.port = s.port := rfl

@[simp] theorem State.hostRequestReset_work (s : State) :
    s.hostRequestReset.work = s.work := rfl

@[simp] theorem State.hostRequestReset_consts (s : State) :
    s.hostRequestReset.consts = s.consts := rfl

@[simp] theorem State.hostRequestReset_offered (s : State) :
    s.hostRequestReset.offered = s.offered := rfl

@[simp] theorem State.hostRequestReset_hostTakes (s : State) :
    s.hostRequestReset.hostTakes = s.hostTakes := rfl

@[simp] theorem State.hostRequestReset_resetLine (s : State) :
    s.hostRequestReset.resetLine = true := rfl

@[simp] theorem State.hostRequestReset_delivered (s : State) :
    s.hostRequestReset.delivered = s.delivered := rfl

@[simp] theorem State.hostRequestReset_draws (s : State) :
    s.hostRequestReset.draws = s.draws := rfl

@[simp] theorem State.withFetchWord_port (nbits w : Nat) (s : State) :
    (s.withFetchWord nbits w).port = .computing (tableDescriptor nbits w) := rfl

@[simp] theorem State.withFetchWord_work (nbits w : Nat) (s : State) :
    (s.withFetchWord nbits w).work = s.work := rfl

@[simp] theorem State.withFetchWord_consts (nbits w : Nat) (s : State) :
    (s.withFetchWord nbits w).consts = s.consts := rfl

@[simp] theorem State.withFetchWord_offered (nbits w : Nat) (s : State) :
    (s.withFetchWord nbits w).offered = s.offered := rfl

@[simp] theorem State.withFetchWord_hostTakes (nbits w : Nat) (s : State) :
    (s.withFetchWord nbits w).hostTakes = s.hostTakes := rfl

@[simp] theorem State.withFetchWord_resetLine (nbits w : Nat) (s : State) :
    (s.withFetchWord nbits w).resetLine = false := rfl

@[simp] theorem State.withFetchWord_delivered (nbits w : Nat) (s : State) :
    (s.withFetchWord nbits w).delivered = s.delivered := rfl

@[simp] theorem State.withFetchWord_draws (nbits w : Nat) (s : State) :
    (s.withFetchWord nbits w).draws = s.draws := rfl

end Sys2Proof.Machine
end

