-- ==== Sys2Proof/Laws/Ops.lean ====
section
/-! SUPPORT. What each shared operation can do, said once: ending a command, concluding it with its result,
the meaning of every command, and one step. Later proofs cite these instead of unfolding the operations. -/

namespace Sys2Proof.Machine

/-- A delivered response leaves the port IDLE. -/
theorem State.release_of_takes (r : Bytes) (s : State) (h : s.hostTakes = true) :
    s.release r = s.deliver r := by simp [State.release, h]

/-- A response the host does not take is held. -/
theorem State.release_of_not_takes (r : Bytes) (s : State) (h : s.hostTakes = false) :
    s.release r = s.hold r := by simp [State.release, h]

/-- Ending a command answers its response and changes nothing else but the working registers. -/
theorem respond_answers (r : Bytes) (s : State) : AnswersWith s (.next (s.respond r)) r := by
  refine ⟨s.respond r, rfl, ?_⟩
  cases h : s.hostTakes <;> simp [State.respond, State.release, h]

/-- Concluding a command answers the response of its result. -/
theorem conclude_answers (result : Except ErrorKind Bytes) (s : State) :
    AnswersWith s (s.conclude result) (responseOf result) := by
  cases result <;> exact respond_answers _ s

/-- Concluding a command is ending it with the response of its result. -/
theorem conclude_eq (result : Except ErrorKind Bytes) (s : State) :
    s.conclude result = .next (s.respond (responseOf result)) := by
  cases result <;> rfl

/-- Every command concludes with the result the constants and its operands give. -/
theorem exec_eq_conclude (i : Instr) (s : State) : exec i s = s.conclude (resultOf s.consts i) := by
  cases i <;> rfl

/-- Every command answers the response of its result. -/
theorem exec_answers (i : Instr) (s : State) :
    AnswersWith s (exec i s) (responseOf (resultOf s.consts i)) := by
  rw [exec_eq_conclude]
  exact conclude_answers _ s

/-- A state answers at most one response. -/
theorem AnswersWith.unique {s : State} {o : Host.Outcome State Fault Refusal} {r r' : Bytes}
    (h : AnswersWith s o r) (h' : AnswersWith s o r') : r = r' := by
  obtain ⟨t, ht, hd, hh, -⟩ := h
  obtain ⟨t', ht', hd', hh', -⟩ := h'
  obtain rfl : t = t' := by rw [ht] at ht'; injection ht'
  cases hs : s.hostTakes with
  | true =>
    have := (hd hs).2.symm.trans (hd' hs).2
    simpa using this
  | false =>
    have := (hh hs).1.symm.trans (hh' hs).1
    simpa using this

/-- A step that finds a reset request performs the reset. -/
theorem step_of_reset (s : State) (h : s.resetLine = true) : step s = .next s.performReset := by
  simp [step, h]

/-- A step in IDLE accepts or waits. -/
theorem step_of_idle (s : State) (h : s.resetLine = false) (hp : s.port = .idle) :
    step s = .next s.idleMove := by
  simp [step, h, hp]

/-- A step with an accepted descriptor ends its command with the response to it. -/
theorem step_of_computing (s : State) (desc : Bytes) (h : s.resetLine = false)
    (hp : s.port = .computing desc) : step s = .next (s.respond (responseTo s.consts desc)) := by
  simp only [step, h, hp, responseTo]
  cases decode desc with
  | ok i => simp [exec_eq_conclude, conclude_eq]
  | error e => rfl

/-- A step with a held response delivers it or goes on holding it. -/
theorem step_of_holding (s : State) (r : Bytes) (h : s.resetLine = false)
    (hp : s.port = .holding r) : step s = .next (s.release r) := by
  simp [step, h, hp, State.holdingMove]

/-- Everything one step can do. -/
theorem step_cases (s : State) :
    (s.resetLine = true ∧ step s = .next s.performReset) ∨
    (s.resetLine = false ∧ s.port = .idle ∧ s.offered = [] ∧ step s = .next s) ∨
    (∃ desc rest, s.resetLine = false ∧ s.port = .idle ∧ s.offered = desc :: rest ∧
      step s = .next (s.accept desc rest)) ∨
    (∃ desc, s.resetLine = false ∧ s.port = .computing desc ∧
      step s = .next (s.respond (responseTo s.consts desc))) ∨
    (∃ r, s.resetLine = false ∧ s.port = .holding r ∧ step s = .next (s.release r)) := by
  cases h : s.resetLine with
  | true => exact .inl ⟨rfl, step_of_reset s h⟩
  | false =>
    right
    cases hp : s.port with
    | idle =>
      rw [step_of_idle s h hp]
      cases ho : s.offered with
      | nil => exact .inl ⟨rfl, rfl, rfl, by simp [State.idleMove, ho]⟩
      | cons d rest => exact .inr (.inl ⟨d, rest, rfl, rfl, rfl, by simp [State.idleMove, ho]⟩)
    | computing d => exact .inr (.inr (.inl ⟨d, rfl, rfl, step_of_computing s d h hp⟩))
    | holding r => exact .inr (.inr (.inr ⟨r, rfl, rfl, step_of_holding s r h hp⟩))

end Sys2Proof.Machine
end

