-- ==== Sys2Proof/Laws/PerInstr.lean ====
section
/-! SUPPORT. The family EncodedLength: the descriptor of a well-formed instruction begins with an assigned
opcode, and the length its fields require (30_encoding.md R68) is its own. One lemma per constructor. -/

namespace Sys2Proof

open Machine

/-- The descriptor of `i` passes the structural check (30_encoding.md R68). -/
def Laws.EncodedLength.Statement (i : Instr) : Prop :=
  i.wf = true →
    ∃ (b : Byte) (rest : Bytes) (op : Opcode), encode i = b :: rest ∧ opcodeOf b = some op ∧
      requiredLength (formatOf op) (encode i) = .ok (encode i).length

/-- The commands of format SEQ share one shape (30_encoding.md R61). -/
theorem Laws.EncodedLength.seq (op : Byte) (data : Bytes) (h : fitsU32 data = true) :
    requiredLength .seq (op :: sized32 data) = .ok (op :: sized32 data).length := by
  have hu : u32be (op :: sized32 data) 1 = data.length := by
    simpa using u32be_sized32 data [] (by simpa [fitsU32] using h)
  have hl : (op :: sized32 data).length = 5 + data.length := by
    rw [List.length_cons, sized32_length]
    omega
  have h5 := needBytes_of_le (op :: sized32 data) 5 (by omega)
  simp only [requiredLength, h5, hu, hl]

theorem Laws.EncodedLength.xor8 (data : Bytes) : Laws.EncodedLength.Statement (.xor8 data) :=
  fun h => ⟨_, _, .xor8, rfl, rfl, Laws.EncodedLength.seq _ data h⟩

theorem Laws.EncodedLength.crc16 (data : Bytes) : Laws.EncodedLength.Statement (.crc16 data) :=
  fun h => ⟨_, _, .crc16, rfl, rfl, Laws.EncodedLength.seq _ data h⟩

theorem Laws.EncodedLength.escape (data : Bytes) : Laws.EncodedLength.Statement (.escape data) :=
  fun h => ⟨_, _, .escape, rfl, rfl, Laws.EncodedLength.seq _ data h⟩

theorem Laws.EncodedLength.packBe16 (v : Word32) : Laws.EncodedLength.Statement (.packBe16 v) :=
  fun _ => ⟨_, _, .packBe16, rfl, rfl, rfl⟩

theorem Laws.EncodedLength.packBcd (digits : Bytes) :
    Laws.EncodedLength.Statement (.packBcd digits) := by
  intro h
  refine ⟨_, _, .packBcd, rfl, rfl, ?_⟩
  have hk : digits.length < 2 ^ 8 := by simpa [Instr.wf, fitsU8] using h
  have hb : byteAt (encode (.packBcd digits)) 1 = digits.length := by
    have : byteAt (encode (.packBcd digits)) 1 = (BitVec.ofNat 8 digits.length).toNat := rfl
    rw [this, BitVec.toNat_ofNat, Nat.mod_eq_of_lt hk]
  have hl : (encode (.packBcd digits)).length = 2 + digits.length := by
    simp only [encode, List.length_cons, sized8_length]
    omega
  simp only [formatOf, requiredLength, needBytes_of_le _ 2 (hl ▸ Nat.le_add_right 2 _), hb, hl]

theorem Laws.EncodedLength.bsjLen (v : Word32) : Laws.EncodedLength.Statement (.bsjLen v) :=
  fun _ => ⟨_, _, .bsjLen, rfl, rfl, rfl⟩

theorem Laws.EncodedLength.gt06Len (v : Word32) : Laws.EncodedLength.Statement (.gt06Len v) :=
  fun _ => ⟨_, _, .gt06Len, rfl, rfl, rfl⟩

theorem Laws.EncodedLength.frame (p : Byte) (raw : Bytes) :
    Laws.EncodedLength.Statement (.frame p raw) := by
  intro h
  refine ⟨_, _, .frame, rfl, rfl, ?_⟩
  have hu : u32be (encode (.frame p raw)) 2 = raw.length := by
    have := u32be_sized32 raw [] (by simpa [Instr.wf, fitsU32] using h)
    rw [List.append_nil] at this
    exact this
  have hl : (encode (.frame p raw)).length = 6 + raw.length := by
    simp only [encode, List.length_cons, sized32_length]
    omega
  simp only [formatOf, requiredLength, needBytes_of_le _ 6 (hl ▸ Nat.le_add_right 6 _), hu, hl]

theorem Laws.EncodedLength.buildBsj (serial : Word32) (digits text : Bytes) :
    Laws.EncodedLength.Statement (.buildBsj serial digits text) := by
  intro h
  refine ⟨_, _, .buildBsj, rfl, rfl, ?_⟩
  have hb : digits.length < 2 ^ 8 ∧ text.length < 2 ^ 32 := by
    simpa [Instr.wf, fitsU8, fitsU32] using h
  have hk : byteAt (encode (.buildBsj serial digits text)) 5 = digits.length := by
    have : byteAt (encode (.buildBsj serial digits text)) 5 =
        (BitVec.ofNat 8 digits.length).toNat := rfl
    rw [this, BitVec.toNat_ofNat, Nat.mod_eq_of_lt hb.1]
  have hn : u32be (encode (.buildBsj serial digits text)) (6 + digits.length) = text.length := by
    have he : encode (.buildBsj serial digits text) =
        (opcodeByte .buildBsj :: (be32 serial ++ sized8 digits)) ++ sized32 text := by
      simp [encode]
    have hl : (opcodeByte .buildBsj :: (be32 serial ++ sized8 digits)).length = 6 + digits.length := by
      simp only [List.length_cons, List.length_append, be32_length, sized8_length]
      omega
    have := u32be_append_add (opcodeByte .buildBsj :: (be32 serial ++ sized8 digits)) (sized32 text) 0
    rw [← he, hl, Nat.add_zero] at this
    rw [this]
    simpa using u32be_sized32 text [] hb.2
  have hl : (encode (.buildBsj serial digits text)).length = 10 + digits.length + text.length := by
    simp only [encode, List.length_cons, List.length_append, be32_length, sized8_length,
      sized32_length]
    omega
  have h6 := needBytes_of_le (encode (.buildBsj serial digits text)) 6 (by omega)
  have h10 := needBytes_of_le (encode (.buildBsj serial digits text)) (10 + digits.length) (by omega)
  simp only [formatOf, requiredLength, h6, hk, h10, hn, hl]

theorem Laws.EncodedLength.buildGt06 (serial : Word32) (lang : Byte) (text : Bytes) :
    Laws.EncodedLength.Statement (.buildGt06 serial lang text) := by
  intro h
  refine ⟨_, _, .buildGt06, rfl, rfl, ?_⟩
  have hn : u32be (encode (.buildGt06 serial lang text)) 6 = text.length := by
    have := u32be_sized32 text [] (by simpa [Instr.wf, fitsU32] using h)
    rw [List.append_nil] at this
    exact this
  have hl : (encode (.buildGt06 serial lang text)).length = 10 + text.length := by
    simp only [encode, List.length_cons, List.length_append, be32_length, sized32_length]
    omega
  have h10 := needBytes_of_le (encode (.buildGt06 serial lang text)) 10 (by omega)
  simp only [formatOf, requiredLength, h10, hn, hl]

end Sys2Proof
end

