-- ==== Sys2Proof/Laws/Units.lean ====
section
/-! SUPPORT. What the units' functions give, said once: the escaper byte by byte, the two bytes of a 16-bit
value, the frames of the two stated protocols, the digit check, the reference inverse. -/

namespace Sys2Proof.Machine

theorem escapeByte_flag : escapeByte 0x7E = [0x7D, 0x02] := rfl

theorem escapeByte_esc : escapeByte 0x7D = [0x7D, 0x01] := rfl

/-- Any other byte passes through the escaper (42_escaper.md R141). -/
theorem escapeByte_other (b : Byte) (hf : b ≠ 0x7E) (he : b ≠ 0x7D) : escapeByte b = [b] :=
  (if_neg hf).trans (if_neg he)

@[simp] theorem escape_nil : escape [] = [] := rfl

theorem escape_cons (b : Byte) (s : Bytes) : escape (b :: s) = escapeByte b ++ escape s := rfl

/-- `be16` in arithmetic. -/
theorem be16_eq_twoBytes (v : Word16) : be16 v = twoBytes v.toNat := by
  have h := v.isLt
  simp only [be16, twoBytes, List.cons.injEq, and_true]
  constructor <;> apply BitVec.eq_of_toNat_eq <;> simp [Nat.shiftRight_eq_div_pow]

@[simp] theorem twoBytes_length (n : Nat) : (twoBytes n).length = 2 := rfl

/-- The BSJ frame (43_framer.md R151, R152). -/
theorem frame_bsjSpec (c : Constants) (raw : Bytes) :
    frame c bsjSpec raw = [0x7E] ++ escape (raw ++ [xor8 raw]) ++ [0x7E] := rfl

/-- The GT06 frame (43_framer.md R151, R152). -/
theorem frame_gt06Spec (c : Constants) (raw : Bytes) :
    frame c gt06Spec raw =
      [0x78, 0x78] ++ (raw ++ be16 (crc16X25 c.crcRom raw)) ++ [0x0D, 0x0A] := rfl

/-- A digit by the bounds of its value (41_field_codec.md R123). -/
theorem isDigit_iff (b : Byte) : isDigit b = true ↔ 0x30 ≤ b.toNat ∧ b.toNat ≤ 0x39 := by
  simp [isDigit]

/-- The digit check raises InvalidInput on a malformed string (41_field_codec.md R123). -/
theorem checkDigits_of_malformed (digits : Bytes) (h : DigitsMalformed digits) :
    checkDigits digits = .error .invalidInput := by
  unfold checkDigits
  split
  · rename_i hall
    rcases h with ⟨b, hb, hbad⟩ | hlong
    · have := (isDigit_iff b).1 (List.all_eq_true.1 hall b hb)
      omega
    · rw [if_pos (by simpa [bcdDigits] using hlong)]
  · rfl

/-- The digit check passes any other string unchanged (41_field_codec.md R123). -/
theorem checkDigits_of_wellFormed (digits : Bytes) (h : ¬ DigitsMalformed digits) :
    checkDigits digits = .ok digits := by
  unfold checkDigits
  have hall : digits.all isDigit = true := by
    rw [List.all_eq_true]
    intro b hb
    rw [isDigit_iff]
    by_contra hn
    exact h (.inl ⟨b, hb, by omega⟩)
  have hlen : ¬ digits.length > bcdDigits := fun hl => h (.inr hl)
  rw [if_pos hall, if_neg hlen]

/-- The serial check raises InvalidInput above 65535 (44_builder_bsj.md R163). -/
theorem checkSerial_of_gt (serial : Word32) (h : 65535 < serial.toNat) :
    checkSerial serial = .error .invalidInput := if_pos h

/-- The serial check passes any other serial (44_builder_bsj.md R163). -/
theorem checkSerial_of_le (serial : Word32) (h : serial.toNat ≤ 65535) :
    checkSerial serial = .ok (serial.setWidth 16) := if_neg (Nat.not_lt.2 h)

/-- The reference inverse has no value on a string with a 0x7E (93_implementation_defined.md U5, log 16). -/
theorem unescape_of_flag_mem {t : Bytes} (h : 0x7E ∈ t) : unescape t = none := if_pos h

/-- The reference inverse is the scan of 42_escaper.md R143 on a string without a 0x7E. -/
theorem unescape_of_flag_not_mem {t : Bytes} (h : 0x7E ∉ t) : unescape t = unescapeScan t := if_neg h

end Sys2Proof.Machine
end

