-- ==== Sys2Proof/Tests/Slice0.lean ====
section
/-! SUPPORT. The model's own tests. Expected values come from spec/95_test_vectors.md and the examples of
30_encoding.md R79; the witnesses show that the hypotheses of the statements can be met together. -/

namespace Sys2Proof.Tests

open Machine

set_option maxRecDepth 8000

/-! ### Helpers -/

/-- The state after reset with a descriptor just accepted. -/
def loaded (desc : Bytes) : State := { State.reset with port := .computing desc }

/-- The state after reset with a response held and a host that takes it or not. -/
def holdingState (r : Bytes) (takes : Bool) : State :=
  { State.reset with port := .holding r, hostTakes := takes }

/-- The responses delivered in an outcome. -/
def deliveredOf : Host.Outcome State Fault Refusal → Option (List Bytes)
  | .next t => some t.delivered
  | .fault _ => none
  | .refused _ => none

/-- The one response a descriptor gets right after reset. -/
def answer (desc : Bytes) : Option (List Bytes) := deliveredOf (step (loaded desc))

/-- The port in an outcome. -/
def portOf : Host.Outcome State Fault Refusal → Option Port
  | .next t => some t.port
  | .fault _ => none
  | .refused _ => none

/-! ### Well-formedness: each check refuses an ill-formed term (30_encoding.md R61 to R66) -/

/-- A string of 2^32 bytes does not fit a u32 length field. -/
theorem too_long_for_u32 (b : Byte) : fitsU32 (List.replicate (2 ^ 32) b) = false := by
  rw [fitsU32, List.length_replicate]
  decide

/-- A string of 256 bytes does not fit a u8 count. -/
theorem too_long_for_u8 (b : Byte) : fitsU8 (List.replicate 256 b) = false := by
  rw [fitsU8, List.length_replicate]
  decide

theorem test_wf_refuses_long_xor8 : (Instr.xor8 (List.replicate (2 ^ 32) 0)).wf = false :=
  too_long_for_u32 0

theorem test_wf_refuses_long_crc16 : (Instr.crc16 (List.replicate (2 ^ 32) 0)).wf = false :=
  too_long_for_u32 0

theorem test_wf_refuses_long_escape : (Instr.escape (List.replicate (2 ^ 32) 0)).wf = false :=
  too_long_for_u32 0

theorem test_wf_refuses_long_packBcd : (Instr.packBcd (List.replicate 256 0x30)).wf = false :=
  too_long_for_u8 0x30

theorem test_wf_refuses_long_frame : (Instr.frame 0x00 (List.replicate (2 ^ 32) 0)).wf = false :=
  too_long_for_u32 0

theorem test_wf_refuses_long_digits_buildBsj :
    (Instr.buildBsj 1 (List.replicate 256 0x30) []).wf = false := by
  rw [Instr.wf, too_long_for_u8, Bool.false_and]

theorem test_wf_refuses_long_text_buildBsj :
    (Instr.buildBsj 1 [] (List.replicate (2 ^ 32) 0)).wf = false := by
  rw [Instr.wf, too_long_for_u32, Bool.and_false]

theorem test_wf_refuses_long_text_buildGt06 :
    (Instr.buildGt06 1 0x01 (List.replicate (2 ^ 32) 0)).wf = false :=
  too_long_for_u32 0

theorem test_wf_accepts_longest_digits : (Instr.packBcd (List.replicate 255 0x30)).wf = true := by
  rw [Instr.wf, fitsU8, List.length_replicate]
  decide

/-! ### Decoding: one descriptor for each constructor, written out from 30_encoding.md R61 to R66 and R79 -/

theorem test_decode_xor8 : decode [0x01, 0, 0, 0, 2, 0xAA, 0xBB] = .ok (.xor8 [0xAA, 0xBB]) := by rfl

theorem test_decode_crc16 :
    decode [0x02, 0, 0, 0, 9, 0x31, 0x32, 0x33, 0x34, 0x35, 0x36, 0x37, 0x38, 0x39] =
      .ok (.crc16 [0x31, 0x32, 0x33, 0x34, 0x35, 0x36, 0x37, 0x38, 0x39]) := by rfl

theorem test_decode_escape : decode [0x03, 0, 0, 0, 1, 0x7E] = .ok (.escape [0x7E]) := by rfl

theorem test_decode_packBe16 :
    decode [0x10, 0x01, 0x02, 0x03, 0x04] = .ok (.packBe16 0x01020304) := by rfl

theorem test_decode_packBcd :
    decode [0x11, 6, 0x33, 0x37, 0x30, 0x37, 0x30, 0x33] =
      .ok (.packBcd [0x33, 0x37, 0x30, 0x37, 0x30, 0x33]) := by rfl

theorem test_decode_bsjLen : decode [0x12, 0, 0, 0, 4] = .ok (.bsjLen 4) := by rfl

theorem test_decode_gt06Len : decode [0x13, 0, 0, 0, 0x0D] = .ok (.gt06Len 13) := by rfl

theorem test_decode_frame :
    decode [0x20, 0x01, 0, 0, 0, 2, 0x01, 0x02] = .ok (.frame 0x01 [0x01, 0x02]) := by rfl

theorem test_decode_buildBsj :
    decode [0x30, 0, 0, 0, 1, 6, 0x33, 0x37, 0x30, 0x37, 0x30, 0x33, 0, 0, 0, 3, 0x41, 0x42, 0x43] =
      .ok (.buildBsj 1 [0x33, 0x37, 0x30, 0x37, 0x30, 0x33] [0x41, 0x42, 0x43]) := by rfl

theorem test_decode_buildGt06 :
    decode [0x31, 0, 0, 0x05, 0xF2, 0x02, 0, 0, 0, 6, 0x57, 0x48, 0x45, 0x52, 0x45, 0x23] =
      .ok (.buildGt06 0x05F2 0x02 [0x57, 0x48, 0x45, 0x52, 0x45, 0x23]) := by rfl

/-- The structural errors of 95_test_vectors.md section 2.8. -/
theorem test_decode_refuses_malformed :
    decode [] = .error .empty ∧ decode [0x00] = .error (.reservedOpcode 0x00) ∧
    decode [0xFF, 0, 0, 0, 0] = .error (.reservedOpcode 0xFF) ∧
    decode [0x01, 0, 0] = .error (.tooShort 5) ∧
    decode [0x01, 0, 0, 0, 2, 0xAA] = .error (.lengthMismatch 7) ∧
    decode [0x01, 0, 0, 0, 1, 0xAA, 0xBB] = .error (.lengthMismatch 6) ∧
    decode [0x10, 0, 0, 0, 1, 0] = .error (.lengthMismatch 5) ∧
    decode [0x11, 3, 0x31, 0x32] = .error (.lengthMismatch 5) ∧
    decode [0x31, 0, 0, 0, 1, 1, 0, 0, 0] = .error (.tooShort 10) ∧
    decode [0x30, 0, 0, 0, 1, 6, 0x33, 0x37, 0x30, 0x37, 0x30] = .error (.tooShort 16) :=
  ⟨rfl, rfl, rfl, rfl, rfl, rfl, rfl, rfl, rfl, rfl⟩

/-- The opcode-table rows, whose fields beyond the opcode the table leaves zero. -/
theorem test_decodeTableWord :
    decodeTableWord 8 0x01 = some (.xor8 []) ∧ decodeTableWord 8 0x02 = some (.crc16 []) ∧
    decodeTableWord 8 0x03 = some (.escape []) ∧ decodeTableWord 8 0x10 = some (.packBe16 0) ∧
    decodeTableWord 8 0x11 = some (.packBcd []) ∧ decodeTableWord 8 0x12 = some (.bsjLen 0) ∧
    decodeTableWord 8 0x13 = some (.gt06Len 0) ∧ decodeTableWord 8 0x20 = some (.frame 0 []) ∧
    decodeTableWord 8 0x30 = some (.buildBsj 0 [] []) ∧
    decodeTableWord 8 0x31 = some (.buildGt06 0 0 []) ∧ decodeTableWord 8 0x32 = none := by decide

theorem test_withFetchWord_runs :
    deliveredOf (step (State.reset.withFetchWord 8 0x13)) = some [[0x00, 0x05]] := by decide

/-! ### One-step tests, expected responses from 95_test_vectors.md section 2 -/

theorem test_xor8_folds : answer [0x01, 0, 0, 0, 4, 0x01, 0x02, 0x04, 0x08] = some [[0x00, 0x0F]] := by
  decide

theorem test_xor8_cancels : answer [0x01, 0, 0, 0, 2, 0xFF, 0xFF] = some [[0x00, 0x00]] := by decide

theorem test_crc16_byte_order : answer [0x02, 0, 0, 0, 2, 0x12, 0x34] = some [[0x00, 0xDE, 0xC1]] := by
  decide

theorem test_crc16_literal_span :
    answer [0x02, 0, 0, 0, 0x11, 0x12, 0x80, 0x0A, 0, 0, 0, 0x01, 0x57, 0x48, 0x45, 0x52, 0x45, 0x23, 0,
      0x01, 0x05, 0xF2] = some [[0x00, 0xA2, 0x22]] := by decide

theorem test_escape_mixed :
    answer [0x03, 0, 0, 0, 5, 0x01, 0x7E, 0x02, 0x7D, 0x03] =
      some [[0x00, 0x01, 0x7D, 0x02, 0x02, 0x7D, 0x01, 0x03]] := by decide

theorem test_escape_is_not_idempotent :
    answer [0x03, 0, 0, 0, 2, 0x7D, 0x02] = some [[0x00, 0x7D, 0x01, 0x02]] := by decide

theorem test_packBe16_high_byte_first : answer [0x10, 0, 0, 0x05, 0xF2] = some [[0x00, 0x05, 0xF2]] := by
  decide

theorem test_packBe16_overflow : answer [0x10, 0, 0x01, 0, 0] = some [[0x01]] := by decide

theorem test_packBcd_pads :
    answer [0x11, 6, 0x33, 0x37, 0x30, 0x37, 0x30, 0x33] = some [[0x00, 0, 0, 0, 0x37, 0x07, 0x03]] := by
  decide

theorem test_packBcd_refuses_letter :
    answer [0x11, 6, 0x33, 0x37, 0x61, 0x37, 0x30, 0x33] = some [[0x01]] := by decide

theorem test_bsjLen_no_flag_masking : answer [0x12, 0, 0, 0x04, 0] = some [[0x00, 0x04, 0x00]] := by decide

theorem test_bsjLen_overflow : answer [0x12, 0, 0x01, 0, 0] = some [[0x02]] := by decide

theorem test_gt06Len_largest : answer [0x13, 0, 0, 0, 0xFA] = some [[0x00, 0xFF]] := by decide

theorem test_gt06Len_overflow : answer [0x13, 0, 0, 0, 0xFB] = some [[0x02]] := by decide

theorem test_frame_bsj_escapes_checksum :
    answer [0x20, 0x00, 0, 0, 0, 2, 0x7D, 0x03] =
      some [[0x00, 0x7E, 0x7D, 0x01, 0x03, 0x7D, 0x02, 0x7E]] := by decide

theorem test_frame_gt06_does_not_escape :
    answer [0x20, 0x01, 0, 0, 0, 2, 0x7E, 0x7D] =
      some [[0x00, 0x78, 0x78, 0x7E, 0x7D, 0xCD, 0xF1, 0x0D, 0x0A]] := by decide

theorem test_buildBsj_escapes_text :
    answer [0x30, 0, 0, 0, 0x02, 6, 0x33, 0x37, 0x30, 0x37, 0x30, 0x33, 0, 0, 0, 4, 0x61, 0x7E, 0x62,
      0x7D] =
      some [[0x00, 0x7E, 0x83, 0x00, 0x00, 0x05, 0x00, 0x00, 0x00, 0x37, 0x07, 0x03, 0x00, 0x02, 0x00, 0x61,
        0x7D, 0x02, 0x62, 0x7D, 0x01, 0xB7, 0x7E]] := by decide

theorem test_buildBsj_escapes_checksum :
    answer [0x30, 0, 0, 0, 0xCA, 6, 0x33, 0x37, 0x30, 0x37, 0x30, 0x33, 0, 0, 0, 2, 0x4F, 0x4B] =
      some [[0x00, 0x7E, 0x83, 0x00, 0x00, 0x03, 0x00, 0x00, 0x00, 0x37, 0x07, 0x03, 0x00, 0xCA, 0x00, 0x4F,
        0x4B, 0x7D, 0x01, 0x7E]] := by decide

theorem test_buildGt06_english :
    answer [0x31, 0, 0, 0x05, 0xF2, 0x02, 0, 0, 0, 6, 0x57, 0x48, 0x45, 0x52, 0x45, 0x23] =
      some [[0x00, 0x78, 0x78, 0x12, 0x80, 0x0A, 0x00, 0x00, 0x00, 0x01, 0x57, 0x48, 0x45, 0x52, 0x45, 0x23,
        0x00, 0x02, 0x05, 0xF2, 0x4D, 0x46, 0x0D, 0x0A]] := by decide

theorem test_buildGt06_refuses_non_ascii :
    answer [0x31, 0, 0, 0, 0x01, 0x01, 0, 0, 0, 2, 0x57, 0x80] = some [[0x03]] := by decide

theorem test_bad_command : answer [0x00] = some [[0x04]] ∧ answer [] = some [[0x04]] := by decide

theorem test_reset_abandons_the_command :
    deliveredOf (step { loaded [0x13, 0, 0, 0, 0] with resetLine := true }) = some [] ∧
    portOf (step { loaded [0x13, 0, 0, 0, 0] with resetLine := true }) = some .idle := by decide

theorem test_untaken_response_is_held :
    portOf (step { loaded [0x13, 0, 0, 0, 0] with hostTakes := false }) = some (.holding [0x00, 0x05]) := by
  decide

/-! ### Witnesses: the hypotheses of the statements, met together -/

/-- DecodeUndoesEncode, for every constructor. -/
theorem witness_wellformed :
    (Instr.xor8 [0x01]).wf = true ∧ (Instr.crc16 [0x01]).wf = true ∧ (Instr.escape [0x7E]).wf = true ∧
    (Instr.packBe16 0x10000).wf = true ∧ (Instr.packBcd (List.replicate 13 0x30)).wf = true ∧
    (Instr.bsjLen 65536).wf = true ∧ (Instr.gt06Len 251).wf = true ∧ (Instr.frame 0x02 []).wf = true ∧
    (Instr.buildBsj 65536 [0x30] [0x41]).wf = true ∧ (Instr.buildGt06 65536 0x03 [0x80]).wf = true := by
  decide

/-- EncodeUndoesDecode and StepRunsTheDecodedCommand, with operands of more than one byte. -/
theorem witness_decodes :
    (loaded [0x20, 0x01, 0, 0, 0, 2, 0x01, 0x02]).resetLine = false ∧
    (loaded [0x20, 0x01, 0, 0, 0, 2, 0x01, 0x02]).port =
      .computing [0x20, 0x01, 0, 0, 0, 2, 0x01, 0x02] ∧
    decode [0x20, 0x01, 0, 0, 0, 2, 0x01, 0x02] = .ok (.frame 0x01 [0x01, 0x02]) := ⟨rfl, rfl, rfl⟩

/-- StructuralCheckIsExact, BadCommandRaisedExactly: descriptors that do not decode. -/
theorem witness_does_not_decode :
    ((loaded []).resetLine = false ∧ (loaded []).port = .computing [] ∧ ¬ ∃ i, decode [] = .ok i) ∧
    ((loaded [0x01, 0, 0, 0]).resetLine = false ∧
      (loaded [0x01, 0, 0, 0]).port = .computing [0x01, 0, 0, 0] ∧
      ¬ ∃ i, decode [0x01, 0, 0, 0] = .ok i) := by
  refine ⟨⟨rfl, rfl, ?_⟩, rfl, rfl, ?_⟩ <;> (rintro ⟨i, h⟩; cases h)

/-- StructuralCheckIsExact: the shortest descriptor of each format decodes. -/
theorem witness_shortest_descriptors :
    decode [0x01, 0, 0, 0, 0] = .ok (.xor8 []) ∧ decode [0x10, 0, 0, 0, 0] = .ok (.packBe16 0) ∧
    decode [0x11, 0] = .ok (.packBcd []) ∧ decode [0x20, 0, 0, 0, 0, 0] = .ok (.frame 0 []) ∧
    decode [0x30, 0, 0, 0, 0, 0, 0, 0, 0, 0] = .ok (.buildBsj 0 [] []) ∧
    decode [0x31, 0, 0, 0, 0, 0, 0, 0, 0, 0] = .ok (.buildGt06 0 0 []) :=
  ⟨rfl, rfl, rfl, rfl, rfl, rfl⟩

/-- ReservedOpcodesAnswerBadCommand: a loaded descriptor with an opcode at each end of each reserved range. -/
theorem witness_reserved_opcodes :
    ∀ op ∈ ([0x00, 0x04, 0x0F, 0x14, 0x1F, 0x21, 0x2F, 0x32, 0xFF] : List Byte),
      (loaded (op :: [0x00])).resetLine = false ∧ (loaded (op :: [0x00])).port = .computing (op :: [0x00]) ∧
      (op.toNat = 0 ∨ (0x04 ≤ op.toNat ∧ op.toNat ≤ 0x0F) ∨ (0x14 ≤ op.toNat ∧ op.toNat ≤ 0x1F) ∨
        (0x21 ≤ op.toNat ∧ op.toNat ≤ 0x2F) ∨ 0x32 ≤ op.toNat) := by decide

/-- AssembledDescriptorsDecode. -/
theorem witness_assembles :
    assembleDescriptor (.escape (.rep 0x7E 2)) = some [0x03, 0, 0, 0, 2, 0x7E, 0x7E] := by decide

/-- IdleBlockAcceptsOldestOffer, both clauses. -/
theorem witness_idle :
    ({ State.reset with offered := [[0x01], [0x02]] } : State).resetLine = false ∧
    ({ State.reset with offered := [[0x01], [0x02]] } : State).port = .idle ∧
    ({ State.reset with offered := [[0x01], [0x02]] } : State).offered = [0x01] :: [[0x02]] ∧
    State.reset.resetLine = false ∧ State.reset.port = .idle ∧ State.reset.offered = [] := by decide

/-- HeldResponseWaitsForTheHost, both clauses. -/
theorem witness_holding :
    ∀ takes : Bool, (holdingState [0x01] takes).resetLine = false ∧
      (holdingState [0x01] takes).port = .holding [0x01] ∧
      (holdingState [0x01] takes).hostTakes = takes := by decide

/-- BusyBlockAcceptsNoCommand: a computing and a holding block, each with a step to a next state. -/
theorem witness_busy :
    (loaded [0x00]).port ≠ .idle ∧ (∃ t, step (loaded [0x00]) = .next t) ∧
    (holdingState [0x01] false).port ≠ .idle ∧ ∃ t, step (holdingState [0x01] false) = .next t :=
  ⟨by decide, ⟨_, rfl⟩, by decide, _, rfl⟩

/-- ResetOnlyIdlesThePort, RetryAfterResetAnswersTheSame. -/
theorem witness_reset_while_busy :
    ({ loaded [0x13, 0, 0, 0, 0] with resetLine := true } : State).port =
      .computing [0x13, 0, 0, 0, 0] ∧
    ({ loaded [0x13, 0, 0, 0, 0] with resetLine := true } : State).resetLine = true := by decide

/-- ResetStateAndConstants: its two premises. -/
theorem witness_reset_state :
    (∃ t, step State.reset = .next t) ∧
    loaded [0x00] = { State.reset with port := .computing [0x00], work := resetWork, draws := 0 } :=
  ⟨⟨_, rfl⟩, rfl⟩

/-- StepKeepsResponsesWellFormed: a state with delivered responses and a held one, and its step. -/
theorem witness_responses_wellformed :
    ResponsesWellFormed { holdingState [0x00, 0x05] true with delivered := [[0x04], [0x00]] } ∧
    ∃ t, step { holdingState [0x00, 0x05] true with delivered := [[0x04], [0x00]] } = .next t := by
  refine ⟨⟨?_, ?_⟩, _, rfl⟩
  · intro r hr
    have h : r = [0x04] ∨ r = [0x00] := by simpa [holdingState] using hr
    rcases h with rfl | rfl
    · exact .inr (.inr (.inr (.inr rfl)))
    · exact .inl ⟨[], rfl⟩
  · intro r hr
    have h : [0x00, 0x05] = r := by simpa [holdingState] using hr
    exact .inl ⟨[0x05], h.symm⟩

/-- ResponseDependsOnDescriptorAlone: two states with one descriptor that differ in all else. -/
theorem witness_two_states :
    (loaded [0x02, 0, 0, 0, 0]).resetLine = false ∧
    ({ loaded [0x02, 0, 0, 0, 0] with
        work := { crcState := 1, xorAcc := 2, cursor := 3, outBuf := [4] }, delivered := [[0x01]],
        offered := [[0x05]], hostTakes := false, draws := 7 } : State).resetLine = false ∧
    (loaded [0x02, 0, 0, 0, 0]).consts =
      ({ loaded [0x02, 0, 0, 0, 0] with
          work := { crcState := 1, xorAcc := 2, cursor := 3, outBuf := [4] }, delivered := [[0x01]],
          offered := [[0x05]], hostTakes := false, draws := 7 } : State).consts := ⟨rfl, rfl, rfl⟩

/-- RunsLoseRepeatOrReorderNoResponse: a run with offers, a host that stops taking, and block steps. -/
theorem witness_run_without_reset :
    State.reset.resetLine = false ∧
    PortAction.requestReset ∉
      [PortAction.offer [0x00], .setTakes false, .block, .block, .offer [0x01], .setTakes true, .block] := by
  decide

/-- ResetsLoseOnlyAbandonedResponses: its first three clauses, on a block with a command in progress, a response
delivered and a command waiting. -/
theorem witness_reset_with_commands_waiting :
    (∀ r : Bool, ({ loaded [0x00] with resetLine := r, delivered := [[0x04]], offered := [[0x01]] } :
      State).resetLine = r) ∧
    PortAction.offer [0x01] ≠ .block ∧ PortAction.setTakes false ≠ .block ∧
    PortAction.requestReset ≠ .block := by decide

/-- WaitingCommandsAreAllAnswered. -/
theorem witness_waiting :
    ({ State.reset with offered := [[0x00], [0x01, 0, 0, 0, 0]] } : State).resetLine = false ∧
    ({ State.reset with offered := [[0x00], [0x01, 0, 0, 0, 0]] } : State).port = .idle ∧
    ({ State.reset with offered := [[0x00], [0x01, 0, 0, 0, 0]] } : State).hostTakes = true := by decide

/-- InstancesAreIndependent, both clauses: two instances, the first with a command. -/
theorem witness_instances :
    (0 < [loaded [0x00], State.reset].length ∧ 1 < [loaded [0x00], State.reset].length ∧ (0 : Nat) ≠ 1) ∧
    [loaded [0x00], State.reset][0]? = some (loaded [0x00]) ∧
    ∃ part', stepInstance 0 [loaded [0x00], State.reset] = .next part' :=
  ⟨by simp, rfl, _, rfl⟩

/-- Crc16AnswersTheTableDrivenCrc: its premise on a nonempty input, with the value of R107. -/
theorem witness_crc_value :
    (0xA3F5 : Word16) = ~~~(([0x41] : Bytes).foldl (fun (st : Word16) (b : Byte) =>
      (st >>> 8) ^^^ romRead State.reset.consts.crcRom (((st ^^^ b.setWidth 16) &&& 0xFF).setWidth 8))
      0xFFFF) := by decide

/-- DivergentRomIsSilentlyWrong: a part whose entry 0 differs in one bit. -/
theorem witness_divergent_rom :
    ({ State.reset with consts := { statedConstants with crcRom := crcTable.set 0 0x0001 } } : State).consts =
      { statedConstants with crcRom := crcTable.set 0 0x0001 } ∧
    romRead (crcTable.set 0 0x0001) 0x00 ≠ romRead crcTable 0x00 := ⟨rfl, by decide⟩

/-- UnescapeInvertsEscape: each premise. -/
theorem witness_unescape :
    (0x7E : Byte) ≠ 0x7D ∧ ((0x00 : Byte) ≠ 0x01 ∧ (0x00 : Byte) ≠ 0x02) ∧
    unescapeScan [0x01, 0x7D, 0x02, 0x7D, 0x01] = some [0x01, 0x7E, 0x7D] ∧
    (0x7E : Byte) ∉ [(0x01 : Byte), 0x7D, 0x02, 0x7D, 0x01] ∧ (0x7E : Byte) ∈ [(0x01 : Byte), 0x7E] := by
  decide

/-- EscaperLaws: the premises of its third and fifth clauses. -/
theorem witness_escaper_laws :
    (escape [0x7E, 0x41])[0]? = some 0x7D ∧ (0x7E : Byte) ∉ [(0x7C : Byte), 0x7F] ∧
    (0x7D : Byte) ∉ [(0x7C : Byte), 0x7F] := by decide

/-- PackBe16AnswersTwoBytes, BsjLenAnswersTheRawCount: the clauses at their common boundary. -/
theorem witness_16_bit_boundary :
    (0xFFFF : Word32).toNat ≤ 0xFFFF ∧ 0xFFFF < (0x10000 : Word32).toNat ∧
    (65535 : Word32).toNat ≤ 65535 ∧ 65535 < (65536 : Word32).toNat := by decide

/-- Gt06LenAnswersThePacketLength: the clauses at their boundary. -/
theorem witness_packet_length_boundary :
    1 + (250 : Word32).toNat + 2 + 2 ≤ 255 ∧ 255 < 1 + (251 : Word32).toNat + 2 + 2 := by decide

/-- PackBcdAnswersSixBytes, PackedFieldsUnpack: 12 digits and none are in range; 13 digits, and the bytes on
either side of the digits, are not. -/
theorem witness_digits_boundary :
    ¬ DigitsMalformed (List.replicate 12 0x39) ∧ ¬ DigitsMalformed [] ∧
    DigitsMalformed (List.replicate 13 0x30) ∧ DigitsMalformed [0x2F] ∧ DigitsMalformed [0x3A] := by
  unfold DigitsMalformed
  decide

/-- FrameAnswersTheFrame: each selector clause, on the constants as stated. -/
theorem witness_selectors :
    State.reset.consts = statedConstants ∧ (0x00 : Byte) = 0x00 ∧ (0x01 : Byte) = 0x01 ∧
    (0x02 : Byte) ≠ 0x00 ∧ (0x02 : Byte) ≠ 0x01 := ⟨rfl, rfl, rfl, by decide, by decide⟩

/-- FramerLaws: a built GT06 frame meets the last clause's premise. -/
theorem witness_built_gt06 :
    ∃ f, buildGt06Result statedConstants 0x05F2 0x01 [0x57] = .ok f := ⟨_, rfl⟩

/-- BuildBsjAnswersTheFrame: the largest text, serial and digit count that succeed. -/
theorem witness_buildBsj_largest :
    State.reset.consts = statedConstants ∧ ¬ BsjInputInvalid 65535 (List.replicate 12 0x39) ∧
    1 + (List.replicate 65534 (0x41 : Byte)).length ≤ 65535 := by
  refine ⟨rfl, ?_, by rw [List.length_replicate]⟩
  unfold BsjInputInvalid DigitsMalformed
  decide

/-- BuildBsjErrorOrder: each clause at its boundary. -/
theorem witness_buildBsj_errors :
    BsjInputInvalid 65536 [] ∧ BsjInputInvalid 1 (List.replicate 13 0x30) ∧ BsjInputInvalid 1 [0x61] ∧
    ¬ BsjInputInvalid 65535 [] ∧ 65535 < 1 + (List.replicate 65535 (0x41 : Byte)).length := by
  refine ⟨?_, ?_, ?_, ?_, by rw [List.length_replicate]; decide⟩ <;>
    (unfold BsjInputInvalid DigitsMalformed; decide)

/-- BsjFrameSize, BuildBsjIsItsPrimitivesComposed: a command that succeeds. -/
theorem witness_buildBsj_succeeds :
    (∃ f, buildBsjResult statedConstants 1 [0x33, 0x37] [0x7E] = .ok f) ∧ packBe16 1 = .ok [0x00, 0x01] ∧
    bcd12 [0x33, 0x37] = .ok [0, 0, 0, 0, 0, 0x37] ∧
    bsjLen (1 + ([0x7E] : Bytes).length) = .ok [0x00, 0x02] := ⟨⟨_, rfl⟩, rfl, rfl, rfl⟩

/-- BuildGt06AnswersTheFrame: the largest text that succeeds, in both languages. -/
theorem witness_buildGt06_largest :
    State.reset.consts = statedConstants ∧ ¬ Gt06InputInvalid 65535 0x01 ∧ ¬ Gt06InputInvalid 65535 0x02 ∧
    (∀ b ∈ List.replicate 243 (0x7F : Byte), b.toNat ≤ 0x7F) ∧
    (List.replicate 243 (0x7F : Byte)).length + 12 ≤ 255 := by
  refine ⟨rfl, ?_, ?_, ?_, by simp⟩
  · unfold Gt06InputInvalid
    decide
  · unfold Gt06InputInvalid
    decide
  · intro b hb
    rw [List.eq_of_mem_replicate hb]
    decide

/-- BuildGt06ErrorOrder: each clause at its boundary. -/
theorem witness_buildGt06_errors :
    Gt06InputInvalid 65536 0x01 ∧ Gt06InputInvalid 0 0x00 ∧ Gt06InputInvalid 0 0x03 ∧
    ¬ Gt06InputInvalid 0 0x01 ∧ (∃ b ∈ ([0x57, 0x80] : Bytes), 0x7F < b.toNat) ∧
    (∀ b ∈ List.replicate 244 (0x41 : Byte), b.toNat ≤ 0x7F) ∧
    255 < (List.replicate 244 (0x41 : Byte)).length + 12 := by
  refine ⟨?_, ?_, ?_, ?_, by decide, ?_, by simp⟩
  · unfold Gt06InputInvalid
    decide
  · unfold Gt06InputInvalid
    decide
  · unfold Gt06InputInvalid
    decide
  · unfold Gt06InputInvalid
    decide
  · intro b hb
    rw [List.eq_of_mem_replicate hb]
    decide

/-- Gt06FrameSize: a command that succeeds, and one more that uses both premises with empty text. -/
theorem witness_gt06_frame_size :
    (∃ f, buildGt06Result statedConstants 0 0x02 [] = .ok f) ∧
    ∃ f, buildGt06Result statedConstants 65535 0x01 [0x00, 0x7F] = .ok f := ⟨⟨_, rfl⟩, _, rfl⟩

/-- Gt06DocumentLiteral: the descriptor of the document's literal, accepted after reset. -/
theorem witness_document_literal :
    (loaded [0x31, 0x00, 0x00, 0x05, 0xF2, 0x01, 0x00, 0x00, 0x00, 0x06, 0x57, 0x48, 0x45, 0x52, 0x45,
      0x23]).resetLine = false ∧
    (loaded [0x31, 0x00, 0x00, 0x05, 0xF2, 0x01, 0x00, 0x00, 0x00, 0x06, 0x57, 0x48, 0x45, 0x52, 0x45,
      0x23]).consts = statedConstants ∧
    (loaded [0x31, 0x00, 0x00, 0x05, 0xF2, 0x01, 0x00, 0x00, 0x00, 0x06, 0x57, 0x48, 0x45, 0x52, 0x45,
      0x23]).port = .computing [0x31, 0x00, 0x00, 0x05, 0xF2, 0x01, 0x00, 0x00, 0x00, 0x06, 0x57, 0x48, 0x45,
      0x52, 0x45, 0x23] := ⟨rfl, rfl, rfl⟩

end Sys2Proof.Tests
end

