-- ==== Sys2Proof/Proofs/StateRules.lean ====
section
/-! PROOF. The statements of 10_state.md about the port and the constants: what answering a command leaves
unchanged, and from that what every step keeps. -/

namespace Sys2Proof.Machine

/-! ### What delivering, holding and answering a response leave unchanged -/

@[simp] theorem State.release_consts (r : Bytes) (s : State) : (s.release r).consts = s.consts := by
  unfold State.release
  split <;> rfl

@[simp] theorem State.release_offered (r : Bytes) (s : State) :
    (s.release r).offered = s.offered := by
  unfold State.release
  split <;> rfl

/-- A released response leaves the port IDLE or holding, never with a descriptor to compute. -/
theorem State.release_port_ne_computing (r desc : Bytes) (s : State) :
    (s.release r).port ≠ .computing desc := by
  unfold State.release
  split <;> simp

@[simp] theorem State.respond_consts (r : Bytes) (s : State) : (s.respond r).consts = s.consts := by
  simp [State.respond]

@[simp] theorem State.respond_offered (r : Bytes) (s : State) :
    (s.respond r).offered = s.offered := by
  simp [State.respond]

theorem State.respond_port_ne_computing (r desc : Bytes) (s : State) :
    (s.respond r).port ≠ .computing desc :=
  State.release_port_ne_computing r desc s.scrambleWork

/-! ### The IDLE block's move, and the response to a descriptor that decodes -/

theorem State.idleMove_of_offered_nil (s : State) (h : s.offered = []) : s.idleMove = s := by
  simp [State.idleMove, h]

theorem State.idleMove_of_offered_cons (s : State) (desc : Bytes) (rest : List Bytes)
    (h : s.offered = desc :: rest) : s.idleMove = s.accept desc rest := by
  simp [State.idleMove, h]

theorem responseTo_of_decode_ok (c : Constants) {desc : Bytes} {i : Instr} (h : decode desc = .ok i) :
    responseTo c desc = responseOf (resultOf c i) := by
  simp [responseTo, h]

/-- A step with an accepted descriptor answers the response to it. -/
theorem step_answers_of_computing (s : State) (desc : Bytes) (h : s.resetLine = false)
    (hp : s.port = .computing desc) : AnswersWith s (step s) (responseTo s.consts desc) := by
  rw [step_of_computing s desc h hp]
  exact respond_answers _ s

/-! ### What every step keeps -/

/-- No step writes the constants (10_state.md R25 to R29). -/
theorem step_consts {s t : State} (h : step s = .next t) : t.consts = s.consts := by
  obtain ⟨-, hs⟩ | ⟨-, -, -, hs⟩ | ⟨desc, rest, -, -, -, hs⟩ | ⟨desc, -, -, hs⟩ | ⟨r, -, -, hs⟩ :=
    step_cases s <;> obtain rfl := Host.Outcome.next.inj (hs.symm.trans h)
  · exact s.performReset_consts
  · rfl
  · exact s.accept_consts desc rest
  · exact s.respond_consts _
  · exact s.release_consts r

/-- A step of a BUSY block resets it, or answers its command, or releases the response it holds. -/
theorem step_cases_of_busy (s : State) (hbusy : s.port ≠ .idle) :
    step s = .next s.performReset ∨ (∃ r, step s = .next (s.respond r)) ∨
      ∃ r, step s = .next (s.release r) := by
  obtain ⟨-, hs⟩ | ⟨-, hp, -⟩ | ⟨desc, rest, -, hp, -⟩ | ⟨desc, -, -, hs⟩ | ⟨r, -, -, hs⟩ :=
    step_cases s
  · exact .inl hs
  · exact absurd hp hbusy
  · exact absurd hp hbusy
  · exact .inr (.inl ⟨_, hs⟩)
  · exact .inr (.inr ⟨r, hs⟩)

/-! ### The statements -/

/-- Settles O11, by the three moves that a BUSY block has: none touches the offers or accepts one. -/
theorem busyBlockAcceptsNoCommand : Obligations.BusyBlockAcceptsNoCommand := by
  intro s t hbusy h
  obtain hs | ⟨r, hs⟩ | ⟨r, hs⟩ := step_cases_of_busy s hbusy <;>
    obtain rfl := Host.Outcome.next.inj (hs.symm.trans h)
  · exact ⟨s.performReset_offered, fun desc => by simp⟩
  · exact ⟨s.respond_offered r, fun desc => s.respond_port_ne_computing r desc⟩
  · exact ⟨s.release_offered r, fun desc => s.release_port_ne_computing r desc⟩

/-- Settles O14: the reset values by their definition, the frame of the constants by `step_consts`; the one
response to a descriptor is `responseTo` of the constants, in which no working register occurs. -/
theorem resetStateAndConstants : Obligations.ResetStateAndConstants := by
  refine ⟨rfl, rfl, rfl, rfl, rfl, rfl, rfl, rfl, rfl, rfl, fun s t => step_consts, fun desc => ?_⟩
  refine ⟨responseTo State.reset.consts desc, ?_⟩
  rintro w draws s rfl
  exact step_answers_of_computing _ desc rfl rfl

/-- Settles O8: both sides end the command with the response of its result. -/
theorem stepRunsTheDecodedCommand : Obligations.StepRunsTheDecodedCommand := by
  intro s desc i hreset hport hdecode
  calc step s = .next (s.respond (responseTo s.consts desc)) := step_of_computing s desc hreset hport
    _ = .next (s.respond (responseOf (resultOf s.consts i))) := by
      rw [responseTo_of_decode_ok s.consts hdecode]
    _ = s.conclude (resultOf s.consts i) := (conclude_eq _ s).symm
    _ = exec i s := (exec_eq_conclude i s).symm

/-- Settles O9, by the two cases of the IDLE block's move. -/
theorem idleBlockAcceptsOldestOffer : Obligations.IdleBlockAcceptsOldestOffer := by
  constructor
  · intro s desc rest hreset hport hoffered
    rw [step_of_idle s hreset hport, s.idleMove_of_offered_cons desc rest hoffered]
    rfl
  · intro s hreset hport hoffered
    rw [step_of_idle s hreset hport, s.idleMove_of_offered_nil hoffered]

end Sys2Proof.Machine
end

