-- ==== Sys2Proof/Proofs/CrcRom.lean ====
section
/-! PROOF. The CRC table follows its generating rule (10_state.md R26): the transcribed rows are compared with
the generated ones, block by block of R25, and every read of the ROM is a read of the generated list. -/

namespace Sys2Proof.Machine

/-- The entry that the generating rule gives for an index (10_state.md R26). -/
def generatedEntry (n : Nat) : Word16 := crcShifts 8 (BitVec.ofNat 16 n)

theorem crcTableRows0_eq_generated : crcTableRows0 = (List.range' 0 64).map generatedEntry := by
  decide

theorem crcTableRows1_eq_generated : crcTableRows1 = (List.range' 64 64).map generatedEntry := by
  decide

theorem crcTableRows2_eq_generated : crcTableRows2 = (List.range' 128 64).map generatedEntry := by
  decide

theorem crcTableRows3_eq_generated : crcTableRows3 = (List.range' 192 64).map generatedEntry := by
  decide

/-- The transcribed table is the generated one. -/
theorem crcTableEntries_eq_generated : crcTableEntries = (List.range 256).map generatedEntry := by
  have hrange : List.range 256 =
      List.range' 0 64 ++ List.range' 64 64 ++ List.range' 128 64 ++ List.range' 192 64 := by
    rw [List.range'_append_1 (s := 0) (m := 64), List.range'_append_1 (s := 0) (m := 128),
      List.range'_append_1 (s := 0) (m := 192), List.range_eq_range']
  rw [hrange, List.map_append, List.map_append, List.map_append, crcTableEntries,
    crcTableRows0_eq_generated, crcTableRows1_eq_generated, crcTableRows2_eq_generated,
    crcTableRows3_eq_generated]

/-- A read of the stated ROM is the generated entry. -/
theorem romRead_crcTable (i : Byte) : romRead crcTable i = generatedEntry i.toNat := by
  simp only [romRead, crcTable, Vector.getElem_mk, List.getElem_toArray, crcTableEntries_eq_generated,
    List.getElem_map, List.getElem_range]

/-- Settles O15: the rule by the comparison of the whole table, the spot checks as entries of it. -/
theorem romFollowsItsGeneratingRule : Obligations.RomFollowsItsGeneratingRule := by
  refine ⟨fun i => ?_, fun c => rfl, rfl, rfl, rfl⟩
  rw [romRead_crcTable, generatedEntry, BitVec.ofNat_toNat]

end Sys2Proof.Machine
end

