-- ==== Sys2Proof/Proofs/ByteSerial.lean ====
section
/-! PROOF. The byte-serial units of 10_state.md R30 compute the functions of the rules. For each unit one lemma
says what a run of feeds makes of the registers it starts from, whatever they hold; the load then fixes them. -/

namespace Sys2Proof.Machine

/-! ### Runs of feeds, from any registers -/

theorem foldl_feedXor (data : Bytes) (w : Work) :
    data.foldl Work.feedXor w =
      { w with xorAcc := data.foldl (fun acc b => acc ^^^ b) w.xorAcc, cursor := w.cursor + data.length } := by
  induction data generalizing w with
  | nil => rfl
  | cons b rest ih => simp [ih, Work.feedXor, Nat.add_assoc, Nat.add_comm 1]

theorem foldl_feedCrc (rom : Vector Word16 256) (data : Bytes) (w : Work) :
    data.foldl (Work.feedCrc rom) w =
      { w with crcState := data.foldl (crcUpdate rom) w.crcState, cursor := w.cursor + data.length } := by
  induction data generalizing w with
  | nil => rfl
  | cons b rest ih => simp [ih, Work.feedCrc, Nat.add_assoc, Nat.add_comm 1]

theorem foldl_feedEscape (data : Bytes) (w : Work) :
    data.foldl Work.feedEscape w =
      { w with outBuf := w.outBuf ++ escape data, cursor := w.cursor + data.length } := by
  induction data generalizing w with
  | nil => simp
  | cons b rest ih => simp [ih, Work.feedEscape, escape_cons, Nat.add_assoc, Nat.add_comm 1]

/-- Escaping is byte by byte, so it distributes over concatenation (42_escaper.md R142). -/
theorem escape_append (s t : Bytes) : escape (s ++ t) = escape s ++ escape t :=
  List.flatMap_append

@[simp] theorem stuffed_nil (p : FrameSpec) : stuffed p [] = [] := by
  simp [stuffed]

/-- So does the framer's stuffing, whether or not the protocol escapes. -/
theorem stuffed_append (p : FrameSpec) (s t : Bytes) :
    stuffed p (s ++ t) = stuffed p s ++ stuffed p t := by
  unfold stuffed
  split
  · exact escape_append s t
  · rfl

theorem foldl_feedFrame (c : Constants) (p : FrameSpec) (raw : Bytes) (w : Work) :
    raw.foldl (Work.feedFrame c p) w =
      { crcState := raw.foldl (crcUpdate c.crcRom) w.crcState
        xorAcc := raw.foldl (fun acc b => acc ^^^ b) w.xorAcc
        cursor := w.cursor + raw.length
        outBuf := w.outBuf ++ stuffed p raw } := by
  induction raw generalizing w with
  | nil => simp
  | cons b rest ih =>
    have hstuffed : stuffed p (b :: rest) = stuffed p [b] ++ stuffed p rest := stuffed_append p [b] rest
    simp [ih, Work.feedFrame, hstuffed, Nat.add_assoc, Nat.add_comm 1]

/-! ### Whole runs -/

theorem Work.runXor_eq (w : Work) (data : Bytes) :
    w.runXor data = { w with xorAcc := xor8 data, cursor := data.length } := by
  simp [Work.runXor, foldl_feedXor, Work.loadXor, xor8]

theorem Work.runCrc_eq (rom : Vector Word16 256) (w : Work) (data : Bytes) :
    w.runCrc rom data =
      { w with crcState := data.foldl (crcUpdate rom) crcInit, cursor := data.length } := by
  simp [Work.runCrc, foldl_feedCrc, Work.loadCrc]

theorem Work.runEscape_eq (w : Work) (data : Bytes) :
    w.runEscape data = { w with outBuf := escape data, cursor := data.length } := by
  simp [Work.runEscape, foldl_feedEscape, Work.loadOut]

/-- The framer's state after the RawFrame and before its end: both check registers computed over the bytes as
they are, the output stuffed (43_framer.md R151, R152). -/
theorem foldl_feedFrame_openFrame (c : Constants) (p : FrameSpec) (w : Work) (raw : Bytes) :
    raw.foldl (Work.feedFrame c p) (w.openFrame p) =
      { crcState := raw.foldl (crcUpdate c.crcRom) crcInit
        xorAcc := xor8 raw
        cursor := raw.length
        outBuf := p.start ++ stuffed p raw } := by
  simp [foldl_feedFrame, Work.openFrame, Work.loadXor, Work.loadCrc, Work.loadOut, xor8]

/-- Check registers that hold the checksum and the uncomplemented CRC give the protocol's trailer. -/
theorem Work.trailer_eq_trailerBytes (c : Constants) (p : FrameSpec) (w : Work) (raw : Bytes)
    (hxor : w.xorAcc = xor8 raw) (hcrc : w.crcState = raw.foldl (crcUpdate c.crcRom) crcInit) :
    w.trailer p = trailerBytes c p raw := by
  unfold Work.trailer trailerBytes
  cases p.trailer with
  | xor8 => simp only [hxor]
  | crc16X25 => simp only [hcrc, crc16X25]

/-- The frame through the framer's stuffing. -/
theorem frame_eq_stuffed (c : Constants) (p : FrameSpec) (raw : Bytes) :
    frame c p raw = p.start ++ stuffed p (raw ++ trailerBytes c p raw) ++ p.stop := rfl

/-! ### The statements -/

/-- Settles O31, by what each unit's run leaves in the registers. -/
theorem byteSerialUnitsComputeTheFunctions : Obligations.ByteSerialUnitsComputeTheFunctions := by
  intro w rom data
  rw [Work.runXor_eq, Work.runCrc_eq, Work.runEscape_eq]
  exact ⟨rfl, rfl, rfl, rfl, rfl, rfl⟩

/-- Settles O32: after the pass the check registers give the trailer, and stuffing the RawFrame and the trailer
one after the other is stuffing them together. -/
theorem byteSerialFramerWritesTheFrame : Obligations.ByteSerialFramerWritesTheFrame := by
  intro c p w raw
  rw [Work.runFrame, foldl_feedFrame_openFrame, Work.closeFrame,
    Work.trailer_eq_trailerBytes c p _ raw rfl rfl, frame_eq_stuffed, stuffed_append]
  simp only [List.append_assoc]

end Sys2Proof.Machine
end

