-- ==== Sys2Proof/Proofs/Ledger.lean ====
section
/-! PROOF. The statements of 20_memory.md R49 and R51 about the ledger of responses, `owed`. First what each
operation makes of the ledger, then what one step and one action do, then runs by induction on their actions. -/

namespace Sys2Proof.Machine

/-! ### The ledger of a state, by its port -/

theorem owed_of_idle (s : State) (hp : s.port = .idle) :
    owed s = s.delivered ++ s.offered.map (responseTo s.consts) := by
  simp [owed, inFlight, hp]

theorem owed_of_computing (s : State) (desc : Bytes) (hp : s.port = .computing desc) :
    owed s = s.delivered ++ [responseTo s.consts desc] ++ s.offered.map (responseTo s.consts) := by
  simp [owed, inFlight, hp]

theorem owed_of_holding (s : State) (r : Bytes) (hp : s.port = .holding r) :
    owed s = s.delivered ++ [r] ++ s.offered.map (responseTo s.consts) := by
  simp [owed, inFlight, hp]

/-! ### What each operation makes of the ledger -/

/-- A released response stands in the ledger once, delivered or held. -/
theorem owed_release (r : Bytes) (s : State) :
    owed (s.release r) = s.delivered ++ [r] ++ s.offered.map (responseTo s.consts) := by
  cases h : s.hostTakes with
  | true =>
    rw [s.release_of_takes r h, owed_of_idle _ (s.deliver_port r)]
    simp
  | false =>
    rw [s.release_of_not_takes r h, owed_of_holding _ r (s.hold_port r)]
    simp

theorem owed_respond (r : Bytes) (s : State) :
    owed (s.respond r) = s.delivered ++ [r] ++ s.offered.map (responseTo s.consts) :=
  owed_release r s.scrambleWork

/-- Accepting a descriptor moves its response from the waiting ones to the command in progress. -/
theorem owed_accept (s : State) (desc : Bytes) (rest : List Bytes) (hp : s.port = .idle)
    (ho : s.offered = desc :: rest) : owed (s.accept desc rest) = owed s := by
  rw [owed_of_computing _ desc (s.accept_port desc rest), owed_of_idle s hp, ho]
  simp

/-- A served reset leaves the delivered responses and those of the waiting commands. -/
theorem owed_performReset (s : State) :
    owed s.performReset = s.delivered ++ s.offered.map (responseTo s.consts) := by
  rw [owed_of_idle _ s.performReset_port]
  simp

/-- What a served reset leaves is the ledger without its command in progress. -/
theorem owed_performReset_sublist (s : State) : (owed s.performReset).Sublist (owed s) := by
  rw [owed_performReset, owed]
  exact (List.sublist_append_left s.delivered (inFlight s)).append_right _

theorem owed_hostOffer (desc : Bytes) (s : State) :
    owed (s.hostOffer desc) = owed s ++ [responseTo s.consts desc] := by
  simp [owed, inFlight]

theorem owed_hostSetTakes (takes : Bool) (s : State) : owed (s.hostSetTakes takes) = owed s := rfl

theorem owed_hostRequestReset (s : State) : owed s.hostRequestReset = owed s := rfl

/-! ### What delivering keeps -/

@[simp] theorem State.release_resetLine (r : Bytes) (s : State) :
    (s.release r).resetLine = s.resetLine := by
  unfold State.release
  split <;> rfl

@[simp] theorem State.respond_resetLine (r : Bytes) (s : State) :
    (s.respond r).resetLine = s.resetLine := by
  simp [State.respond]

theorem State.delivered_prefix_release (r : Bytes) (s : State) :
    s.delivered <+: (s.release r).delivered := by
  unfold State.release
  split
  · exact List.prefix_append s.delivered [r]
  · exact List.prefix_rfl

theorem State.delivered_prefix_respond (r : Bytes) (s : State) :
    s.delivered <+: (s.respond r).delivered :=
  State.delivered_prefix_release r s.scrambleWork

/-! ### One step -/

/-- No step stops: everything in `step_cases` answers a next state. -/
theorem exists_step_eq_next (s : State) : ∃ t, step s = .next t := by
  obtain ⟨-, hs⟩ | ⟨-, -, -, hs⟩ | ⟨_, _, -, -, -, hs⟩ | ⟨_, -, -, hs⟩ | ⟨_, -, -, hs⟩ := step_cases s <;>
    exact ⟨_, hs⟩

/-- `step_cases` read from the next state. -/
theorem step_next_cases {s t : State} (h : step s = .next t) :
    (s.resetLine = true ∧ t = s.performReset) ∨
    (s.resetLine = false ∧ t = s) ∨
    (∃ desc rest, s.resetLine = false ∧ s.port = .idle ∧ s.offered = desc :: rest ∧
      t = s.accept desc rest) ∨
    (∃ desc, s.resetLine = false ∧ s.port = .computing desc ∧
      t = s.respond (responseTo s.consts desc)) ∨
    (∃ r, s.resetLine = false ∧ s.port = .holding r ∧ t = s.release r) := by
  obtain ⟨hr, hs⟩ | ⟨hr, -, -, hs⟩ | ⟨desc, rest, hr, hp, ho, hs⟩ | ⟨desc, hr, hp, hs⟩ | ⟨r, hr, hp, hs⟩ :=
    step_cases s <;> obtain rfl := Host.Outcome.next.inj (hs.symm.trans h)
  · exact .inl ⟨hr, rfl⟩
  · exact .inr (.inl ⟨hr, rfl⟩)
  · exact .inr (.inr (.inl ⟨desc, rest, hr, hp, ho, rfl⟩))
  · exact .inr (.inr (.inr (.inl ⟨desc, hr, hp, rfl⟩)))
  · exact .inr (.inr (.inr (.inr ⟨r, hr, hp, rfl⟩)))

/-- Without a reset request a step moves responses along the ledger and changes none. -/
theorem step_owed {s t : State} (hreset : s.resetLine = false) (h : step s = .next t) :
    owed t = owed s := by
  obtain ⟨hr, -⟩ | ⟨-, rfl⟩ | ⟨desc, rest, -, hp, ho, rfl⟩ | ⟨desc, -, hp, rfl⟩ | ⟨r, -, hp, rfl⟩ :=
    step_next_cases h
  · simp [hreset] at hr
  · rfl
  · exact owed_accept s desc rest hp ho
  · rw [owed_respond, owed_of_computing s desc hp]
  · rw [owed_release, owed_of_holding s r hp]

/-- With a reset request or without, a step adds nothing to the ledger and keeps its order. -/
theorem step_owed_sublist {s t : State} (h : step s = .next t) : (owed t).Sublist (owed s) := by
  cases hreset : s.resetLine with
  | true =>
    obtain rfl := Host.Outcome.next.inj ((step_of_reset s hreset).symm.trans h)
    exact owed_performReset_sublist s
  | false => rw [step_owed hreset h]

/-- No step takes back what was delivered (20_memory.md R49). -/
theorem step_delivered_prefix {s t : State} (h : step s = .next t) : s.delivered <+: t.delivered := by
  obtain ⟨-, rfl⟩ | ⟨-, rfl⟩ | ⟨desc, rest, -, -, -, rfl⟩ | ⟨desc, -, -, rfl⟩ | ⟨r, -, -, rfl⟩ :=
    step_next_cases h
  · exact List.prefix_rfl
  · exact List.prefix_rfl
  · exact List.prefix_rfl
  · exact s.delivered_prefix_respond _
  · exact s.delivered_prefix_release r

/-- The block never asks for a reset itself. -/
theorem step_resetLine {s t : State} (h : step s = .next t) : t.resetLine = false := by
  obtain ⟨-, rfl⟩ | ⟨hr, rfl⟩ | ⟨desc, rest, hr, -, -, rfl⟩ | ⟨desc, hr, -, rfl⟩ | ⟨r, hr, -, rfl⟩ :=
    step_next_cases h
  · exact s.performReset_resetLine
  · exact hr
  · exact hr
  · exact (s.respond_resetLine _).trans hr
  · exact (s.release_resetLine r).trans hr

/-! ### One action -/

theorem offersOf_cons (a : PortAction) (acts : List PortAction) :
    offersOf (a :: acts) = offersOf [a] ++ offersOf acts := by
  cases a <;> rfl

theorem exists_act_eq_next (a : PortAction) (s : State) : ∃ t, act a s = .next t := by
  cases a with
  | block => exact exists_step_eq_next s
  | offer desc => exact ⟨_, rfl⟩
  | setTakes takes => exact ⟨_, rfl⟩
  | requestReset => exact ⟨_, rfl⟩

theorem act_consts {a : PortAction} {s t : State} (h : act a s = .next t) : t.consts = s.consts := by
  cases a with
  | block => exact step_consts h
  | offer desc => obtain rfl := Host.Outcome.next.inj h; rfl
  | setTakes takes => obtain rfl := Host.Outcome.next.inj h; rfl
  | requestReset => obtain rfl := Host.Outcome.next.inj h; rfl

/-- An action of the host keeps the ledger but for a new offer's response at its end. -/
theorem act_owed_of_ne_block {a : PortAction} {s t : State} (ha : a ≠ .block) (h : act a s = .next t) :
    owed t = owed s ++ (offersOf [a]).map (responseTo s.consts) := by
  cases a with
  | block => exact absurd rfl ha
  | offer desc =>
    obtain rfl := Host.Outcome.next.inj h
    exact owed_hostOffer desc s
  | setTakes takes =>
    obtain rfl := Host.Outcome.next.inj h
    simp [offersOf, owed_hostSetTakes]
  | requestReset =>
    obtain rfl := Host.Outcome.next.inj h
    simp [offersOf, owed_hostRequestReset]

/-- Without a reset request every action keeps the ledger so. -/
theorem act_owed {a : PortAction} {s t : State} (hreset : s.resetLine = false) (h : act a s = .next t) :
    owed t = owed s ++ (offersOf [a]).map (responseTo s.consts) := by
  by_cases ha : a = .block
  · subst ha
    simpa [offersOf] using step_owed hreset h
  · exact act_owed_of_ne_block ha h

theorem act_owed_sublist {a : PortAction} {s t : State} (h : act a s = .next t) :
    (owed t).Sublist (owed s ++ (offersOf [a]).map (responseTo s.consts)) := by
  by_cases ha : a = .block
  · subst ha
    simpa [offersOf] using step_owed_sublist h
  · rw [act_owed_of_ne_block ha h]

theorem act_delivered_prefix {a : PortAction} {s t : State} (h : act a s = .next t) :
    s.delivered <+: t.delivered := by
  cases a with
  | block => exact step_delivered_prefix h
  | offer desc => obtain rfl := Host.Outcome.next.inj h; exact List.prefix_rfl
  | setTakes takes => obtain rfl := Host.Outcome.next.inj h; exact List.prefix_rfl
  | requestReset => obtain rfl := Host.Outcome.next.inj h; exact List.prefix_rfl

/-- Only the host's request sets the reset line. -/
theorem act_resetLine {a : PortAction} {s t : State} (ha : a ≠ .requestReset)
    (hreset : s.resetLine = false) (h : act a s = .next t) : t.resetLine = false := by
  cases a with
  | block => exact step_resetLine h
  | offer desc => obtain rfl := Host.Outcome.next.inj h; exact hreset
  | setTakes takes => obtain rfl := Host.Outcome.next.inj h; exact hreset
  | requestReset => exact absurd rfl ha

/-! ### Runs -/

theorem runActions_nil (s : State) : runActions [] s = .next s := rfl

theorem runActions_cons_of_act {a : PortAction} {s t : State} (h : act a s = .next t)
    (acts : List PortAction) : runActions (a :: acts) s = runActions acts t := by
  simp [runActions, h]

/-- A run of `a :: acts` is the action `a`, which answers a next state, and from there a run of `acts`. -/
theorem runActions_cons_next {a : PortAction} {acts : List PortAction} {s u : State}
    (h : runActions (a :: acts) s = .next u) : ∃ t, act a s = .next t ∧ runActions acts t = .next u := by
  obtain ⟨t, ht⟩ := exists_act_eq_next a s
  exact ⟨t, ht, (runActions_cons_of_act ht acts).symm.trans h⟩

theorem exists_runActions_eq_next (acts : List PortAction) (s : State) :
    ∃ t, runActions acts s = .next t := by
  induction acts generalizing s with
  | nil => exact ⟨s, runActions_nil s⟩
  | cons a acts ih =>
    obtain ⟨t, ht⟩ := exists_act_eq_next a s
    rw [runActions_cons_of_act ht]
    exact ih t

theorem runActions_consts {acts : List PortAction} {s u : State} (h : runActions acts s = .next u) :
    u.consts = s.consts := by
  induction acts generalizing s with
  | nil => obtain rfl := Host.Outcome.next.inj h; rfl
  | cons a acts ih =>
    obtain ⟨t, ht, hu⟩ := runActions_cons_next h
    exact (ih hu).trans (act_consts ht)

/-- Without resets the ledger only grows, by the responses to the new offers at its end. -/
theorem runActions_owed {acts : List PortAction} {s u : State} (hreset : s.resetLine = false)
    (hacts : PortAction.requestReset ∉ acts) (h : runActions acts s = .next u) :
    owed u = owed s ++ (offersOf acts).map (responseTo s.consts) := by
  induction acts generalizing s with
  | nil => obtain rfl := Host.Outcome.next.inj h; simp [offersOf]
  | cons a acts ih =>
    obtain ⟨t, ht, hu⟩ := runActions_cons_next h
    have ha : a ≠ .requestReset := (List.ne_of_not_mem_cons hacts).symm
    have hrest : PortAction.requestReset ∉ acts := List.not_mem_of_not_mem_cons hacts
    calc owed u = owed t ++ (offersOf acts).map (responseTo t.consts) :=
          ih (act_resetLine ha hreset ht) hrest hu
      _ = owed s ++ (offersOf [a]).map (responseTo s.consts) ++ (offersOf acts).map (responseTo s.consts) := by
          rw [act_owed hreset ht, act_consts ht]
      _ = owed s ++ (offersOf (a :: acts)).map (responseTo s.consts) := by
          rw [offersOf_cons a acts, List.map_append, List.append_assoc]

/-- With resets, what remains of the ledger so grown is in order. -/
theorem runActions_owed_sublist {acts : List PortAction} {s u : State} (h : runActions acts s = .next u) :
    (owed u).Sublist (owed s ++ (offersOf acts).map (responseTo s.consts)) := by
  induction acts generalizing s with
  | nil => obtain rfl := Host.Outcome.next.inj h; simp [offersOf]
  | cons a acts ih =>
    obtain ⟨t, ht, hu⟩ := runActions_cons_next h
    have htail := ih hu
    rw [act_consts ht] at htail
    have hhead := (act_owed_sublist ht).append_right ((offersOf acts).map (responseTo s.consts))
    rw [List.append_assoc, ← List.map_append, ← offersOf_cons] at hhead
    exact htail.trans hhead

theorem runActions_delivered_prefix {acts : List PortAction} {s u : State}
    (h : runActions acts s = .next u) : s.delivered <+: u.delivered := by
  induction acts generalizing s with
  | nil => obtain rfl := Host.Outcome.next.inj h; exact List.prefix_rfl
  | cons a acts ih =>
    obtain ⟨t, ht, hu⟩ := runActions_cons_next h
    exact (act_delivered_prefix ht).trans (ih hu)

/-! ### The statements -/

/-- Settles O21: every run reaches a next state, and its ledger is `runActions_owed`. -/
theorem runsLoseRepeatOrReorderNoResponse : Obligations.RunsLoseRepeatOrReorderNoResponse := by
  intro acts s hreset hacts
  obtain ⟨t, ht⟩ := exists_runActions_eq_next acts s
  exact ⟨t, ht, runActions_consts ht, runActions_owed hreset hacts ht⟩

/-- Settles O22: a step that serves a reset, a step that does not, an action of the host, and runs of them. -/
theorem resetsLoseOnlyAbandonedResponses : Obligations.ResetsLoseOnlyAbandonedResponses := by
  refine ⟨fun s hreset => ?_, fun s hreset => ?_, fun a s ha => ?_, fun acts s => ?_⟩
  · exact ⟨s.performReset, step_of_reset s hreset, owed_performReset s⟩
  · obtain ⟨t, ht⟩ := exists_step_eq_next s
    exact ⟨t, ht, step_owed hreset ht⟩
  · obtain ⟨t, ht⟩ := exists_act_eq_next a s
    exact ⟨t, ht, act_owed_of_ne_block ha ht⟩
  · obtain ⟨t, ht⟩ := exists_runActions_eq_next acts s
    exact ⟨t, ht, runActions_consts ht, runActions_owed_sublist ht, runActions_delivered_prefix ht⟩

end Sys2Proof.Machine
end

