-- ==== Sys2Proof/Proofs/Commands.lean ====
section
/-! PROOF. What every command answers (20_memory.md R48, R49): the response of its result, in one of the two forms
of 30_encoding.md R71. -/

namespace Sys2Proof.Machine

theorem okResponse_form (data : Bytes) : ResponseForm (okResponse data) := .inl ⟨data, rfl⟩

/-- An error response is the one status byte of its kind (30_encoding.md R72). -/
theorem errorResponse_form (e : ErrorKind) : ResponseForm (errorResponse e) := by
  cases e with
  | invalidInput => exact .inr (.inl rfl)
  | lengthOverflow => exact .inr (.inr (.inl rfl))
  | encodingFailure => exact .inr (.inr (.inr (.inl rfl)))
  | badCommand => exact .inr (.inr (.inr (.inr rfl)))

theorem responseOf_form (result : Except ErrorKind Bytes) : ResponseForm (responseOf result) := by
  cases result with
  | ok data => exact okResponse_form data
  | error e => exact errorResponse_form e

/-- Settles O19: the command answers the response of its result, which is well formed. -/
theorem everyCommandOnlyAnswers : Obligations.EveryCommandOnlyAnswers :=
  fun i s => ⟨responseOf (resultOf s.consts i), responseOf_form _, exec_answers i s⟩

end Sys2Proof.Machine
end

