-- ==== Sys2Proof/Proofs/Instances.lean ====
section
/-! PROOF. The instances of a part are independent (20_memory.md R56): a step of one replaces its own state in
the part, so steps of two different ones write different places. -/

namespace Sys2Proof.Machine

/-- Stepping place `k` of a part puts the next state of its own step there, and changes no other place. -/
theorem stepInstance_of_step {part : List State} {k : Nat} {s t : State} (hk : part[k]? = some s)
    (hs : step s = .next t) : stepInstance k part = .next (part.set k t) := by
  simp [stepInstance, hk, hs]

/-- Two different instances step one after the other, each from its state in the given part. -/
theorem runInstances_pair {part : List State} {j k : Nat} {s s' t t' : State} (hjk : j ≠ k)
    (hj : part[j]? = some s) (hs : step s = .next s') (hk : part[k]? = some t) (ht : step t = .next t') :
    runInstances [j, k] part = .next ((part.set j s').set k t') := by
  have hk' : (part.set j s')[k]? = some t := by rw [List.getElem?_set_ne hjk, hk]
  simp [runInstances, stepInstance_of_step hj hs, stepInstance_of_step hk' ht]

/-- Settles O24: in either order the part ends with both next states in their places. -/
theorem instancesAreIndependent : Obligations.InstancesAreIndependent := by
  constructor
  · intro part j k hj hk hjk
    have hgetj : part[j]? = some part[j] := List.getElem?_eq_getElem hj
    have hgetk : part[k]? = some part[k] := List.getElem?_eq_getElem hk
    obtain ⟨s', hs⟩ := exists_step_eq_next part[j]
    obtain ⟨t', ht⟩ := exists_step_eq_next part[k]
    refine ⟨(part.set j s').set k t', runInstances_pair hjk hgetj hs hgetk ht, ?_⟩
    rw [List.set_comm s' t' hjk]
    exact runInstances_pair hjk.symm hgetk ht hgetj hs
  · intro part part' k s hk h
    obtain ⟨t, hs⟩ := exists_step_eq_next s
    obtain rfl := Host.Outcome.next.inj ((stepInstance_of_step hk hs).symm.trans h)
    have hlt : k < part.length := (List.getElem?_eq_some_iff.mp hk).1
    exact ⟨⟨t, hs, List.getElem?_set_self hlt⟩, fun j hj => List.getElem?_set_ne hj.symm⟩

end Sys2Proof.Machine
end

