-- ==== Sys2Proof/Proofs/DescriptorRules.lean ====
section
/-! PROOF. Rules about descriptors: the opcode map (30_encoding.md R69), the structural check of R68 as a predicate
on each format, the decoder by these two, and each field read at its offset and written back. -/

namespace Sys2Proof

open Machine

/-! ### The opcode map -/

theorem opcodeOf_opcodeByte (op : Opcode) : opcodeOf (opcodeByte op) = some op := by
  cases op <;> rfl

/-- A byte is assigned to the opcode that it is the byte of, and to no other. -/
theorem opcodeOf_eq_some_iff {b : Byte} {op : Opcode} : opcodeOf b = some op ↔ b = opcodeByte op := by
  constructor
  · intro h
    unfold opcodeOf at h
    split_ifs at h <;> (cases h; assumption)
  · rintro rfl
    exact opcodeOf_opcodeByte op

/-- The assigned opcodes sorted by their formats: a property of the format of `b`'s opcode, format by format. -/
theorem exists_opcode_iff (P : Format → Prop) (b : Byte) :
    (∃ op, b = opcodeByte op ∧ P (formatOf op)) ↔
      ((b = 0x01 ∨ b = 0x02 ∨ b = 0x03) ∧ P .seq) ∨ ((b = 0x10 ∨ b = 0x12 ∨ b = 0x13) ∧ P .val) ∨
        (b = 0x11 ∧ P .dig) ∨ (b = 0x20 ∧ P .pseq) ∨ (b = 0x30 ∧ P .bsj) ∨ (b = 0x31 ∧ P .gt06) := by
  constructor
  · rintro ⟨op, rfl, h⟩
    cases op with
    | xor8 => exact .inl ⟨.inl rfl, h⟩
    | crc16 => exact .inl ⟨.inr (.inl rfl), h⟩
    | escape => exact .inl ⟨.inr (.inr rfl), h⟩
    | packBe16 => exact .inr (.inl ⟨.inl rfl, h⟩)
    | bsjLen => exact .inr (.inl ⟨.inr (.inl rfl), h⟩)
    | gt06Len => exact .inr (.inl ⟨.inr (.inr rfl), h⟩)
    | packBcd => exact .inr (.inr (.inl ⟨rfl, h⟩))
    | frame => exact .inr (.inr (.inr (.inl ⟨rfl, h⟩)))
    | buildBsj => exact .inr (.inr (.inr (.inr (.inl ⟨rfl, h⟩))))
    | buildGt06 => exact .inr (.inr (.inr (.inr (.inr ⟨rfl, h⟩))))
  · rintro (⟨rfl | rfl | rfl, h⟩ | ⟨rfl | rfl | rfl, h⟩ | ⟨rfl, h⟩ | ⟨rfl, h⟩ | ⟨rfl, h⟩ | ⟨rfl, h⟩)
    · exact ⟨.xor8, rfl, h⟩
    · exact ⟨.crc16, rfl, h⟩
    · exact ⟨.escape, rfl, h⟩
    · exact ⟨.packBe16, rfl, h⟩
    · exact ⟨.bsjLen, rfl, h⟩
    · exact ⟨.gt06Len, rfl, h⟩
    · exact ⟨.packBcd, rfl, h⟩
    · exact ⟨.frame, rfl, h⟩
    · exact ⟨.buildBsj, rfl, h⟩
    · exact ⟨.buildGt06, rfl, h⟩

/-- The byte values that 30_encoding.md R70 reserves. -/
def ReservedValue (n : Nat) : Prop :=
  n = 0 ∨ (0x04 ≤ n ∧ n ≤ 0x0F) ∨ (0x14 ≤ n ∧ n ≤ 0x1F) ∨ (0x21 ≤ n ∧ n ≤ 0x2F) ∨ 0x32 ≤ n

theorem opcodeByte_not_reserved (op : Opcode) : ¬ ReservedValue (opcodeByte op).toNat := by
  unfold ReservedValue
  cases op <;> decide

/-! ### The structural check -/

/-- The descriptor holds the fields of format `f` and has exactly the length they require (30_encoding.md R68). -/
def LengthValid (desc : Bytes) : Format → Prop
  | .seq => 5 ≤ desc.length ∧ desc.length = 5 + u32be desc 1
  | .val => desc.length = 5
  | .dig => 2 ≤ desc.length ∧ desc.length = 2 + byteAt desc 1
  | .pseq => 6 ≤ desc.length ∧ desc.length = 6 + u32be desc 2
  | .bsj => 6 ≤ desc.length ∧ 10 + byteAt desc 5 ≤ desc.length ∧
      desc.length = 10 + byteAt desc 5 + u32be desc (6 + byteAt desc 5)
  | .gt06 => 10 ≤ desc.length ∧ desc.length = 10 + u32be desc 6

/-- `need m` by the bound it checks. -/
theorem needBytes_eq_ite (desc : Bytes) (m : Nat) :
    needBytes desc m = if m ≤ desc.length then .ok () else .error (.tooShort m) := by
  split
  · exact needBytes_of_le desc m ‹_›
  · exact needBytes_of_lt desc m (Nat.not_le.1 ‹_›)

/-- `LengthValid` is what the decoder's length computation checks. -/
theorem requiredLength_eq_length_iff (f : Format) (desc : Bytes) :
    requiredLength f desc = .ok desc.length ↔ LengthValid desc f := by
  simp only [requiredLength, LengthValid, needBytes_eq_ite]
  cases f with
  | seq => by_cases h : 5 ≤ desc.length <;> simp [h, eq_comm]
  | val => simp [eq_comm]
  | dig => by_cases h : 2 ≤ desc.length <;> simp [h, eq_comm]
  | pseq => by_cases h : 6 ≤ desc.length <;> simp [h, eq_comm]
  | bsj =>
    by_cases h : 6 ≤ desc.length <;> by_cases hk : 10 + byteAt desc 5 ≤ desc.length <;> simp [h, hk, eq_comm]
  | gt06 => by_cases h : 10 ≤ desc.length <;> simp [h, eq_comm]

/-- The decoder accepts a descriptor exactly if its first byte is an opcode's and its length is valid for that
opcode's format, and it then answers the operands assembled for that opcode. -/
theorem decode_eq_ok_iff {desc : Bytes} {i : Instr} :
    decode desc = .ok i ↔ ∃ op rest, desc = opcodeByte op :: rest ∧ LengthValid desc (formatOf op) ∧
      assembleOperands op desc = i := by
  constructor
  · intro h
    unfold decode at h
    split at h
    next => cases h
    next b rest =>
      split at h
      next => cases h
      next op hop =>
        split at h
        next => cases h
        next required hrequired =>
          split at h
          next hlength =>
            obtain rfl := opcodeOf_eq_some_iff.1 hop
            exact ⟨op, rest, rfl, (requiredLength_eq_length_iff _ _).1 (hlength ▸ hrequired),
              Except.ok.inj h⟩
          next => cases h
  · rintro ⟨op, rest, rfl, hlength, rfl⟩
    simp [decode, opcodeOf_opcodeByte, (requiredLength_eq_length_iff _ _).2 hlength]

/-- The structural check of 30_encoding.md R68 is what the decoder accepts. -/
theorem exists_decode_eq_ok_iff {desc : Bytes} :
    (∃ i, decode desc = .ok i) ↔
      ∃ op rest, desc = opcodeByte op :: rest ∧ LengthValid desc (formatOf op) := by
  simp only [decode_eq_ok_iff]
  constructor
  · rintro ⟨i, op, rest, hdesc, hlength, -⟩
    exact ⟨op, rest, hdesc, hlength⟩
  · rintro ⟨op, rest, hdesc, hlength⟩
    exact ⟨_, op, rest, hdesc, hlength, rfl⟩

/-! ### A field read at an offset and written back gives the descriptor's bytes from there -/

theorem substring_length_le (desc : Bytes) (i n : Nat) : (substring desc i n).length ≤ n :=
  List.length_take_le n (desc.drop i)

theorem substring_append_drop (desc : Bytes) (i n : Nat) :
    substring desc i n ++ desc.drop (i + n) = desc.drop i := by
  rw [substring, ← List.drop_drop, List.take_append_drop]

theorem byteField_cons_drop {desc : Bytes} {i : Nat} (h : i < desc.length) :
    byteField desc i :: desc.drop (i + 1) = desc.drop i := by
  rw [List.drop_eq_getElem_cons h]
  simp [byteField, byteAt, h]

theorem u32be_eq_drop (desc : Bytes) {i : Nat} (h : i ≤ desc.length) :
    u32be desc i = u32be (desc.drop i) 0 := by
  have := u32be_append_add (desc.take i) (desc.drop i) 0
  rwa [List.take_append_drop, List.length_take_of_le h] at this

theorem be32_valueField_append_drop {desc : Bytes} {i : Nat} (h : i + 4 ≤ desc.length) :
    be32 (valueField desc i) ++ desc.drop (i + 4) = desc.drop i := by
  rw [valueField, u32be_eq_drop desc (by omega), ← List.drop_drop]
  have hlength : 4 ≤ (desc.drop i).length := by rw [List.length_drop]; omega
  match desc.drop i, hlength with
  | a :: b :: c :: d :: rest, _ => rw [be32_u32be]; rfl

theorem sized8_substring_append_drop {desc : Bytes} {i : Nat} (h : i + 1 + byteAt desc i ≤ desc.length) :
    sized8 (substring desc (i + 1) (byteAt desc i)) ++ desc.drop (i + 1 + byteAt desc i) = desc.drop i := by
  have hlength : (substring desc (i + 1) (byteAt desc i)).length = byteAt desc i :=
    List.length_take_of_le (by rw [List.length_drop]; omega)
  rw [sized8, hlength, List.cons_append, substring_append_drop]
  exact byteField_cons_drop (by omega)

/-- A sized string at offset `i` that ends the descriptor; its bytes begin at `j`, behind the length field. -/
theorem sized32_substring {desc : Bytes} {i j : Nat} (hj : j = i + 4) (h : desc.length = j + u32be desc i) :
    sized32 (substring desc j (u32be desc i)) = desc.drop i := by
  subst hj
  have hall : substring desc (i + 4) (u32be desc i) = desc.drop (i + 4) :=
    List.take_of_length_le (by rw [List.length_drop]; omega)
  have hlength : (desc.drop (i + 4)).length = u32be desc i := by rw [List.length_drop]; omega
  rw [sized32, hall, hlength]
  exact be32_valueField_append_drop (by omega)

/-! ### A field written behind other bytes and read at their length gives the operand -/

theorem valueField_be32 (b : Byte) (v : Word32) (t : Bytes) : valueField (b :: (be32 v ++ t)) 1 = v := by
  rw [valueField, u32be_cons_succ, u32be_be32_append, BitVec.ofNat_toNat, BitVec.setWidth_eq]

theorem byteField_append_cons (pre t : Bytes) (b : Byte) : byteField (pre ++ b :: t) pre.length = b := by
  have := byteAt_append_add pre (b :: t) 0
  rw [Nat.add_zero] at this
  rw [byteField, this, byteAt_cons_zero, BitVec.ofNat_toNat, BitVec.setWidth_eq]

theorem byteAt_append_sized8 {digits : Bytes} (pre t : Bytes) (h : digits.length < 2 ^ 8) :
    byteAt (pre ++ (sized8 digits ++ t)) pre.length = digits.length := by
  have := byteAt_append_add pre (sized8 digits ++ t) 0
  rw [Nat.add_zero] at this
  rw [this, sized8, List.cons_append, byteAt_cons_zero, BitVec.toNat_ofNat, Nat.mod_eq_of_lt h]

theorem substring_append_sized8 {digits : Bytes} (pre t : Bytes) (h : digits.length < 2 ^ 8) :
    substring (pre ++ (sized8 digits ++ t)) (pre.length + 1) (byteAt (pre ++ (sized8 digits ++ t)) pre.length) =
      digits := by
  rw [byteAt_append_sized8 pre t h, substring_append_add, sized8, List.cons_append, substring_cons_succ,
    substring_zero_append_length]

theorem u32be_append_sized32 {data : Bytes} (pre : Bytes) (h : data.length < 2 ^ 32) :
    u32be (pre ++ sized32 data) pre.length = data.length := by
  have := u32be_append_add pre (sized32 data) 0
  rw [Nat.add_zero] at this
  rw [this]
  simpa using u32be_sized32 data [] h

theorem substring_append_sized32 {data : Bytes} (pre : Bytes) (h : data.length < 2 ^ 32) :
    substring (pre ++ sized32 data) (pre.length + 4) (u32be (pre ++ sized32 data) pre.length) = data := by
  rw [u32be_append_sized32 pre h, substring_append_add, sized32]
  exact (substring_append_add (be32 _) data 0 data.length).trans List.take_length

end Sys2Proof
end

