-- ==== Sys2Proof/Proofs/Encoding.lean ====
section
/-! PROOF. The statements of 30_encoding.md R61 to R79 about the encoder, the decoder and the assembler: the two
round trips opcode by opcode, the structural check, and what follows from them for assembled descriptors. -/

namespace Sys2Proof

open Machine

/-! ### Decode undoes encode -/

/-- The opcode of an instruction (30_encoding.md R69). -/
def Instr.opcode : Instr → Opcode
  | .xor8 _ => .xor8
  | .crc16 _ => .crc16
  | .escape _ => .escape
  | .packBe16 _ => .packBe16
  | .packBcd _ => .packBcd
  | .bsjLen _ => .bsjLen
  | .gt06Len _ => .gt06Len
  | .frame _ _ => .frame
  | .buildBsj _ _ _ => .buildBsj
  | .buildGt06 _ _ _ => .buildGt06

theorem encode_eq_cons (i : Instr) : ∃ rest, encode i = opcodeByte i.opcode :: rest := by
  cases i <;> exact ⟨_, rfl⟩

/-- The family EncodedLength, whole: every constructor's descriptor passes the structural check. -/
theorem encodedLength (i : Instr) : Laws.EncodedLength.Statement i := by
  cases i with
  | xor8 data => exact Laws.EncodedLength.xor8 data
  | crc16 data => exact Laws.EncodedLength.crc16 data
  | escape data => exact Laws.EncodedLength.escape data
  | packBe16 v => exact Laws.EncodedLength.packBe16 v
  | packBcd digits => exact Laws.EncodedLength.packBcd digits
  | bsjLen v => exact Laws.EncodedLength.bsjLen v
  | gt06Len v => exact Laws.EncodedLength.gt06Len v
  | frame p raw => exact Laws.EncodedLength.frame p raw
  | buildBsj serial digits text => exact Laws.EncodedLength.buildBsj serial digits text
  | buildGt06 serial lang text => exact Laws.EncodedLength.buildGt06 serial lang text

theorem lengthValid_encode {i : Instr} (hwf : i.wf = true) : LengthValid (encode i) (formatOf i.opcode) := by
  obtain ⟨b, rest, op, hencode, hop, hlength⟩ := encodedLength i hwf
  obtain ⟨rest', hencode'⟩ := encode_eq_cons i
  obtain ⟨rfl, -⟩ := List.cons.inj (hencode.symm.trans hencode')
  obtain rfl := Option.some.inj ((opcodeOf_opcodeByte i.opcode).symm.trans hop)
  exact (requiredLength_eq_length_iff _ _).1 hlength

theorem fitsU32_iff (s : Bytes) : fitsU32 s = true ↔ s.length < 2 ^ 32 := decide_eq_true_iff

theorem fitsU8_iff (s : Bytes) : fitsU8 s = true ↔ s.length < 2 ^ 8 := decide_eq_true_iff

/-- BUILD_BSJ, whose second length field stands behind the digits that the first one counts. -/
theorem assembleOperands_buildBsj {serial : Word32} {digits text desc : Bytes} (hd : digits.length < 2 ^ 8)
    (ht : text.length < 2 ^ 32)
    (hdesc : desc = opcodeByte .buildBsj :: (be32 serial ++ (sized8 digits ++ sized32 text))) :
    assembleOperands .buildBsj desc = .buildBsj serial digits text := by
  have hserial : valueField desc 1 = serial := hdesc ▸ valueField_be32 _ serial _
  have hcount : byteAt desc 5 = digits.length :=
    hdesc ▸ byteAt_append_sized8 (opcodeByte .buildBsj :: be32 serial) (sized32 text) hd
  have hdigits : substring desc 6 (byteAt desc 5) = digits :=
    hdesc ▸ substring_append_sized8 (opcodeByte .buildBsj :: be32 serial) (sized32 text) hd
  have htext : substring desc (10 + digits.length) (u32be desc (6 + digits.length)) = text := by
    have hread := substring_append_sized32 (opcodeByte .buildBsj :: (be32 serial ++ sized8 digits)) ht
    have hbehind : (opcodeByte .buildBsj :: (be32 serial ++ sized8 digits)).length = 6 + digits.length := by
      simp only [List.length_cons, List.length_append, be32_length, sized8_length]
      omega
    rw [hbehind, List.cons_append, List.append_assoc, ← hdesc, Nat.add_right_comm] at hread
    exact hread
  rw [assembleOperands, hserial, hdigits, hcount, htext]

/-- Each operand is read back from the descriptor that its instruction is written as. -/
theorem assembleOperands_encode {i : Instr} (hwf : i.wf = true) : assembleOperands i.opcode (encode i) = i := by
  cases i with
  | xor8 data =>
    exact congrArg Instr.xor8 (substring_append_sized32 [opcodeByte .xor8] ((fitsU32_iff data).1 hwf))
  | crc16 data =>
    exact congrArg Instr.crc16 (substring_append_sized32 [opcodeByte .crc16] ((fitsU32_iff data).1 hwf))
  | escape data =>
    exact congrArg Instr.escape (substring_append_sized32 [opcodeByte .escape] ((fitsU32_iff data).1 hwf))
  | packBe16 v => exact congrArg Instr.packBe16 (valueField_be32 _ v [])
  | bsjLen v => exact congrArg Instr.bsjLen (valueField_be32 _ v [])
  | gt06Len v => exact congrArg Instr.gt06Len (valueField_be32 _ v [])
  | packBcd digits =>
    have hdigits := substring_append_sized8 [opcodeByte .packBcd] [] ((fitsU8_iff digits).1 hwf)
    rw [List.append_nil] at hdigits
    exact congrArg Instr.packBcd hdigits
  | frame p raw =>
    have hp := byteField_append_cons [opcodeByte .frame] (sized32 raw) p
    have hraw := substring_append_sized32 [opcodeByte .frame, p] ((fitsU32_iff raw).1 hwf)
    exact congrArg₂ Instr.frame hp hraw
  | buildBsj serial digits text =>
    obtain ⟨hd, ht⟩ := Bool.and_eq_true_iff.1 hwf
    exact assembleOperands_buildBsj ((fitsU8_iff digits).1 hd) ((fitsU32_iff text).1 ht)
      (congrArg (opcodeByte .buildBsj :: ·) (List.append_assoc _ _ _))
  | buildGt06 serial lang text =>
    have hserial := valueField_be32 (opcodeByte .buildGt06) serial (lang :: sized32 text)
    have hlang := byteField_append_cons (opcodeByte .buildGt06 :: be32 serial) (sized32 text) lang
    have htext := substring_append_sized32 (opcodeByte .buildGt06 :: (be32 serial ++ [lang]))
      ((fitsU32_iff text).1 hwf)
    exact (Instr.buildGt06.injEq _ _ _ _ _ _).mpr ⟨hserial, hlang, htext⟩

/-- Settles O1: the encoding passes the structural check, and each operand is read back from it. -/
theorem decodeUndoesEncode : Obligations.DecodeUndoesEncode := by
  intro i hwf
  obtain ⟨rest, hencode⟩ := encode_eq_cons i
  exact decode_eq_ok_iff.2 ⟨i.opcode, rest, hencode, lengthValid_encode hwf, assembleOperands_encode hwf⟩

/-! ### Encode undoes decode -/

/-- A descriptor of valid length is its opcode byte and the fields read from it, written back in order. -/
theorem encode_assembleOperands {op : Opcode} {desc : Bytes} (h : LengthValid desc (formatOf op)) :
    encode (assembleOperands op desc) = opcodeByte op :: desc.drop 1 := by
  cases op with
  | xor8 | crc16 | escape =>
    obtain ⟨-, hlength⟩ := h
    exact congrArg (_ :: ·) (sized32_substring rfl hlength)
  | packBe16 | bsjLen | gt06Len =>
    have hlength : desc.length = 5 := h
    have hv := be32_valueField_append_drop (desc := desc) (i := 1) (by omega)
    rw [List.drop_of_length_le (by omega), List.append_nil] at hv
    exact congrArg (_ :: ·) hv
  | packBcd =>
    obtain ⟨-, hlength⟩ := h
    have hdigits := sized8_substring_append_drop (desc := desc) (i := 1) (by omega)
    rw [List.drop_of_length_le (by omega), List.append_nil] at hdigits
    exact congrArg (_ :: ·) hdigits
  | frame =>
    obtain ⟨hfields, hlength⟩ := h
    have hp := byteField_cons_drop (desc := desc) (i := 1) (by omega)
    rw [← sized32_substring (i := 2) rfl hlength] at hp
    exact congrArg (_ :: ·) hp
  | buildBsj =>
    obtain ⟨-, htext, hlength⟩ := h
    have hserial := be32_valueField_append_drop (desc := desc) (i := 1) (by omega)
    have hdigits : sized8 (substring desc 6 (byteAt desc 5)) ++ desc.drop (6 + byteAt desc 5) = desc.drop 5 :=
      sized8_substring_append_drop (by omega)
    rw [← hdigits, ← sized32_substring (by omega) hlength, ← List.append_assoc] at hserial
    exact congrArg (_ :: ·) hserial
  | buildGt06 =>
    obtain ⟨hfields, hlength⟩ := h
    have hserial := be32_valueField_append_drop (desc := desc) (i := 1) (by omega)
    rw [← byteField_cons_drop (i := 5) (by omega), ← sized32_substring (i := 6) rfl hlength] at hserial
    exact congrArg (_ :: ·) hserial

/-- A field read from a descriptor fits the length field it was counted by. -/
theorem assembleOperands_wf (op : Opcode) (desc : Bytes) : (assembleOperands op desc).wf = true := by
  have h8 (i j : Nat) : fitsU8 (substring desc i (byteAt desc j)) = true :=
    (fitsU8_iff _).2 ((substring_length_le _ _ _).trans_lt (byteAt_lt desc j))
  have h32 (i j : Nat) : fitsU32 (substring desc i (u32be desc j)) = true :=
    (fitsU32_iff _).2 ((substring_length_le _ _ _).trans_lt (u32be_lt desc j))
  cases op with
  | xor8 | crc16 | escape | frame | buildGt06 => exact h32 _ _
  | packBe16 | bsjLen | gt06Len => rfl
  | packBcd => exact h8 _ _
  | buildBsj => exact Bool.and_eq_true_iff.2 ⟨h8 _ _, h32 _ _⟩

/-- Settles O2: an accepted descriptor has a valid length, and is then its fields written back. -/
theorem encodeUndoesDecode : Obligations.EncodeUndoesDecode := by
  intro desc i hdecode
  obtain ⟨op, rest, rfl, hlength, rfl⟩ := decode_eq_ok_iff.1 hdecode
  exact ⟨assembleOperands_wf op _, encode_assembleOperands hlength⟩

/-! ### The structural check -/

theorem not_exists_decode_of_reserved {op : Byte} (hop : ReservedValue op.toNat) (rest : Bytes) :
    ¬ ∃ i, decode (op :: rest) = .ok i := by
  rw [exists_decode_eq_ok_iff]
  rintro ⟨op', rest', heq, -⟩
  obtain ⟨rfl, -⟩ := List.cons.inj heq
  exact opcodeByte_not_reserved op' hop

theorem responseTo_of_not_decode (c : Constants) {desc : Bytes} (h : ¬ ∃ i, decode desc = .ok i) :
    responseTo c desc = [0x04] := by
  unfold responseTo
  split
  next i hdecode => exact absurd ⟨i, hdecode⟩ h
  next => rfl

/-- A descriptor that does not decode raises BadCommand (60_exceptions.md R204). -/
theorem step_answers_badCommand {s : State} {desc : Bytes} (hreset : s.resetLine = false)
    (hport : s.port = .computing desc) (h : ¬ ∃ i, decode desc = .ok i) : AnswersWith s (step s) [0x04] := by
  rw [← responseTo_of_not_decode s.consts h]
  exact step_answers_of_computing s desc hreset hport

/-- Settles O3: the assigned opcodes sorted by format, each format with its length check. -/
theorem structuralCheckIsExact : Obligations.StructuralCheckIsExact := by
  refine ⟨fun desc => ?_, fun s desc => step_answers_badCommand⟩
  calc (∃ i, decode desc = .ok i)
      ↔ ∃ op rest, desc = opcodeByte op :: rest ∧ LengthValid desc (formatOf op) := exists_decode_eq_ok_iff
    _ ↔ ∃ b rest, desc = b :: rest ∧ ∃ op, b = opcodeByte op ∧ LengthValid desc (formatOf op) := by
      constructor
      · rintro ⟨op, rest, hdesc, hlength⟩
        exact ⟨_, rest, hdesc, op, rfl, hlength⟩
      · rintro ⟨_, rest, hdesc, op, rfl, hlength⟩
        exact ⟨op, rest, hdesc, hlength⟩
    _ ↔ _ := exists_congr fun b => exists_congr fun _ =>
      and_congr_right fun _ => exists_opcode_iff (LengthValid desc) b

/-- Settles O5: a reserved byte is no opcode's, so its descriptor does not decode. -/
theorem reservedOpcodesAnswerBadCommand : Obligations.ReservedOpcodesAnswerBadCommand :=
  fun _ _ rest hreset hport hop => step_answers_badCommand hreset hport (not_exists_decode_of_reserved hop rest)

/-! ### The assembler -/

/-- The assembler's instructions fit their length fields, so its descriptors decode to them. -/
theorem decode_encode_of_assembleLine {line : AsmLine} {i : Instr} (h : assembleLine line = some i) :
    decode (encode i) = .ok i :=
  decodeUndoesEncode i (Option.filter_eq_some_iff.1 h).2

/-- Settles O6: the descriptor is the encoding of the line's instruction. -/
theorem assembledDescriptorsDecode : Obligations.AssembledDescriptorsDecode := by
  intro line desc h
  obtain ⟨i, hline, rfl⟩ := Option.map_eq_some_iff.1 h
  exact ⟨i, hline, decode_encode_of_assembleLine hline⟩

/-- A line with its instruction, and that with its descriptor, give an example of 30_encoding.md section 6. -/
theorem assembles_and_decodes {line : AsmLine} {i : Instr} {desc : Bytes} (hline : assembleLine line = some i)
    (hencode : encode i = desc) : assembleDescriptor line = some desc ∧ decode desc = .ok i := by
  subst hencode
  exact ⟨Option.map_eq_some_iff.2 ⟨i, hline, rfl⟩, decode_encode_of_assembleLine hline⟩

/-- Settles O4: each line gives its instruction and that its bytes; the decoder then reads them back by O1. -/
theorem specExamplesAssembleAndDecode : Obligations.SpecExamplesAssembleAndDecode :=
  ⟨assembles_and_decodes rfl rfl, assembles_and_decodes rfl rfl, assembles_and_decodes rfl rfl,
    assembles_and_decodes rfl rfl, assembles_and_decodes rfl rfl, assembles_and_decodes rfl rfl,
    assembles_and_decodes rfl rfl, assembles_and_decodes rfl rfl, assembles_and_decodes rfl rfl,
    assembles_and_decodes rfl rfl⟩

/-- Settles O7: each pseudo-instruction has the arm of the line it stands for. -/
theorem pseudoInstructionsExpand : Obligations.PseudoInstructionsExpand :=
  ⟨fun _ _ _ => rfl, fun _ _ _ => rfl, fun _ => rfl, fun _ => rfl, fun _ => rfl⟩

end Sys2Proof
end

