-- ==== Sys2Proof/Proofs/Responses.lean ====
section
/-! PROOF. Every response held or delivered is well formed (30_encoding.md R71, R72): it holds after reset, and
each of the moves in `step_next_cases` keeps it. -/

namespace Sys2Proof.Machine

theorem responseTo_form (c : Constants) (desc : Bytes) : ResponseForm (responseTo c desc) := by
  unfold responseTo
  split
  · exact responseOf_form _
  · exact errorResponse_form .badCommand

/-- Releasing a well-formed response delivers it behind well-formed ones or holds it. -/
theorem responsesWellFormed_release {r : Bytes} {s : State} (hdelivered : ∀ r ∈ s.delivered, ResponseForm r)
    (hr : ResponseForm r) : ResponsesWellFormed (s.release r) := by
  cases htakes : s.hostTakes with
  | true =>
    rw [s.release_of_takes r htakes]
    refine ⟨fun r' hmem => ?_, by simp⟩
    rw [s.deliver_delivered, List.mem_append, List.mem_singleton] at hmem
    obtain hmem | rfl := hmem
    · exact hdelivered r' hmem
    · exact hr
  | false =>
    rw [s.release_of_not_takes r htakes]
    refine ⟨hdelivered, fun r' hport => ?_⟩
    obtain rfl := Port.holding.inj hport
    exact hr

/-- Settles O16: only a computed or held response enters the port or the delivered ones. -/
theorem stepKeepsResponsesWellFormed : Obligations.StepKeepsResponsesWellFormed := by
  rintro s t ⟨hdelivered, hheld⟩ h
  obtain ⟨-, rfl⟩ | ⟨-, rfl⟩ | ⟨desc, rest, -, -, -, rfl⟩ | ⟨desc, -, -, rfl⟩ | ⟨r, -, hport, rfl⟩ :=
    step_next_cases h
  · exact ⟨hdelivered, by simp⟩
  · exact ⟨hdelivered, hheld⟩
  · exact ⟨hdelivered, by simp⟩
  · exact responsesWellFormed_release (s := s.scrambleWork) hdelivered (responseTo_form s.consts desc)
  · exact responsesWellFormed_release hdelivered (hheld r hport)

/-- Settles O17: the state after reset is IDLE and has delivered nothing. -/
theorem resetResponsesWellFormed : Obligations.ResetResponsesWellFormed :=
  ⟨fun _ hmem => absurd hmem List.not_mem_nil, fun _ hport => nomatch hport⟩

end Sys2Proof.Machine
end

