-- ==== Sys2Proof/Proofs/Xor8.lean ====
section
/-! PROOF. The XOR-8 checksum (40_checksum_crc.md R100 to R102): its fold from any accumulator is the accumulator
against the fold from 0x00, and the laws follow from that. -/

namespace Sys2Proof.Machine

@[simp] theorem xor8_nil : xor8 [] = 0x00 := rfl

/-- A fold that starts from another accumulator than 0x00 differs from the checksum by that accumulator. -/
theorem foldl_xor_eq_xor_xor8 (acc : Byte) (s : Bytes) :
    s.foldl (fun acc b => acc ^^^ b) acc = acc ^^^ xor8 s := by
  calc s.foldl (fun acc b => acc ^^^ b) acc
      = s.foldl (fun acc b => acc ^^^ b) (acc ^^^ xorInit) :=
        congrArg (fun a => s.foldl (fun acc b => acc ^^^ b) a) BitVec.xor_zero.symm
    _ = acc ^^^ xor8 s := List.foldl_assoc

theorem xor8_singleton (b : Byte) : xor8 [b] = b := BitVec.zero_xor

theorem xor8_append (s t : Bytes) : xor8 (s ++ t) = xor8 s ^^^ xor8 t :=
  List.foldl_append.trans (foldl_xor_eq_xor_xor8 (xor8 s) t)

/-- A string followed by its checksum has the checksum 0x00, the receiver's check. -/
theorem xor8_append_xor8 (s : Bytes) : xor8 (s ++ [xor8 s]) = 0x00 := by
  rw [xor8_append, xor8_singleton]
  exact BitVec.xor_self

theorem xor8_perm {s t : Bytes} (h : s.Perm t) : xor8 s = xor8 t := h.foldl_eq xorInit

/-! ### The statements -/

/-- Settles O26, by the four laws above. -/
theorem xor8Laws : Obligations.Xor8Laws :=
  ⟨xor8_nil, xor8_append, xor8_append_xor8, fun _ _ => xor8_perm⟩

/-- Settles O25: the result of XOR8 is the one byte of the fold. -/
theorem xor8AnswersTheFold : Obligations.Xor8AnswersTheFold :=
  fun data s => exec_answers (.xor8 data) s

end Sys2Proof.Machine
end

