-- ==== Sys2Proof/Proofs/Crc.lean ====
section
/-! PROOF. The CRC-16/X.25 generator (40_checksum_crc.md R104 to R107). The shift of 10_state.md R26 is linear over
exclusive-or, so eight shifts of the CRC state split into those of its high byte, which only move it down, and
those of its low byte, which the ROM holds. -/

namespace Sys2Proof.Machine

/-! ### Shifts of the generating rule -/

theorem crcShift_xor (a b : Word16) : crcShift (a ^^^ b) = crcShift a ^^^ crcShift b := by
  unfold crcShift
  rw [BitVec.getLsbD_xor, BitVec.ushiftRight_xor_distrib]
  cases a.getLsbD 0 <;> cases b.getLsbD 0
  case false.false => rfl
  case false.true => exact BitVec.xor_assoc _ _ _
  case true.false =>
    simp only [Bool.xor_false, Bool.false_eq_true, ↓reduceIte]
    ac_rfl
  case true.true =>
    calc (a >>> 1) ^^^ (b >>> 1)
        = ((a >>> 1) ^^^ (b >>> 1)) ^^^ ((0x8408 : Word16) ^^^ 0x8408) := BitVec.xor_zero.symm
      _ = ((a >>> 1) ^^^ 0x8408) ^^^ ((b >>> 1) ^^^ 0x8408) := by ac_rfl

theorem crcShifts_xor (n : Nat) (a b : Word16) :
    crcShifts n (a ^^^ b) = crcShifts n a ^^^ crcShifts n b := by
  induction n generalizing a b with
  | zero => rfl
  | succ n ih => rw [crcShifts, crcShift_xor, ih, crcShifts, crcShifts]

/-- The shift applies no polynomial when the bit it shifts out is zero. -/
theorem crcShift_of_low_bit_zero {c : Word16} (h : c.getLsbD 0 = false) : crcShift c = c >>> 1 := by
  rw [crcShift, h]
  rfl

/-- While only zero bits are shifted out, no shift applies the polynomial. -/
theorem crcShifts_of_low_bits_zero (n : Nat) (c : Word16) (h : ∀ i < n, c.getLsbD i = false) :
    crcShifts n c = c >>> n := by
  induction n generalizing c with
  | zero => rfl
  | succ n ih =>
    have hbit : crcShift c = c >>> 1 := crcShift_of_low_bit_zero (h 0 n.succ_pos)
    have hrest : ∀ i < n, (c >>> 1).getLsbD i = false := fun i hi => by
      rw [BitVec.getLsbD_ushiftRight]
      exact h (1 + i) (by omega)
    rw [crcShifts, hbit, ih _ hrest, ← BitVec.shiftRight_add, Nat.add_comm]

/-- A 16-bit value is its high byte in place against its low byte. -/
theorem high_xor_low (c : Word16) : c = (c >>> 8 <<< 8) ^^^ (c.extractLsb' 0 8).setWidth 16 := by
  ext i hi
  by_cases hlow : i < 8
  · simp [hlow, BitVec.getLsbD_eq_getElem hi]
  · simp [hlow, Nat.add_sub_cancel' (Nat.le_of_not_lt hlow), BitVec.getLsbD_eq_getElem hi]

/-- Eight shifts move the high byte down and look up the low byte (10_state.md R26). -/
theorem crcShifts_eight (c : Word16) :
    crcShifts 8 c = (c >>> 8) ^^^ crcShifts 8 ((c.extractLsb' 0 8).setWidth 16) := by
  have hzero : ∀ i < 8, (c >>> 8 <<< 8).getLsbD i = false := fun i hi => by simp [hi]
  have hhigh : crcShifts 8 (c >>> 8 <<< 8) = c >>> 8 := by
    rw [crcShifts_of_low_bits_zero 8 _ hzero]
    ext i hi
    simpa using BitVec.lt_of_getLsbD
  calc crcShifts 8 c
      = crcShifts 8 ((c >>> 8 <<< 8) ^^^ (c.extractLsb' 0 8).setWidth 16) := by rw [← high_xor_low]
    _ = (c >>> 8) ^^^ crcShifts 8 ((c.extractLsb' 0 8).setWidth 16) := by rw [crcShifts_xor, hhigh]

/-! ### One byte's update -/

/-- A byte against the CRC state leaves the state's high byte alone. -/
theorem xor_byte_ushiftRight_eight (st : Word16) (b : Byte) :
    (st ^^^ b.setWidth 16) >>> 8 = st >>> 8 := by
  ext i hi
  simp

/-- With the stated ROM, one table-driven update is eight bit-serial shifts. -/
theorem crcUpdate_crcTable (st : Word16) (b : Byte) :
    crcUpdate crcTable st b = crcShifts 8 (st ^^^ b.setWidth 16) := by
  obtain ⟨hrule, -⟩ := romFollowsItsGeneratingRule
  rw [crcShifts_eight, xor_byte_ushiftRight_eight, ← hrule, crcUpdate]

/-- The low byte of a 16-bit value is the value masked by 0xFF, as R104 writes the ROM index. -/
theorem low_byte_eq_masked (c : Word16) : c.extractLsb' 0 8 = (c &&& 0xFF).setWidth 8 := by
  calc c.extractLsb' 0 8
      = c.setWidth 8 := (BitVec.setWidth_eq_extractLsb' (by decide)).symm
    _ = c.setWidth 8 &&& BitVec.setWidth 8 0xFF := BitVec.and_allOnes.symm
    _ = (c &&& 0xFF).setWidth 8 := BitVec.setWidth_and.symm

theorem crcUpdate_eq_masked (rom : Vector Word16 256) (st : Word16) (b : Byte) :
    crcUpdate rom st b = (st >>> 8) ^^^ romRead rom (((st ^^^ b.setWidth 16) &&& 0xFF).setWidth 8) := by
  rw [crcUpdate, low_byte_eq_masked]

/-- The CRC by the bitwise complement (00_scope.md R11). -/
theorem crc16X25_eq_not (rom : Vector Word16 256) (data : Bytes) :
    crc16X25 rom data = ~~~(data.foldl (crcUpdate rom) 0xFFFF) :=
  BitVec.xor_allOnes

/-! ### The statements -/

/-- Settles O28: the two folds have the same update. -/
theorem tableDrivenCrcIsBitSerialCrc : Obligations.TableDrivenCrcIsBitSerialCrc := by
  intro data
  have hupdate : crcUpdate crcTable = fun st b => crcShifts 8 (st ^^^ b.setWidth 16) :=
    funext₂ crcUpdate_crcTable
  rw [crc16X25, hupdate, crc16X25Bitwise]

/-- Settles O27: the result of CRC16 is the two bytes of the CRC, and R104's update is the model's. -/
theorem crc16AnswersTheTableDrivenCrc : Obligations.Crc16AnswersTheTableDrivenCrc := by
  rintro data s _ rfl
  have hupdate := funext₂ (crcUpdate_eq_masked s.consts.crcRom)
  have hanswer := exec_answers (.crc16 data) s
  rw [resultOf, be16_eq_twoBytes, crc16X25_eq_not, hupdate] at hanswer
  exact hanswer

/-- Settles O29, by running the table-driven CRC on each string. -/
theorem crcCheckValues : Obligations.CrcCheckValues :=
  ⟨rfl, rfl, rfl, rfl, rfl, rfl⟩

end Sys2Proof.Machine
end

