-- ==== Sys2Proof/Proofs/FieldCodec.lean ====
section
/-! PROOF. The field packer (41_field_codec.md R120 to R128). PACK_BE16, BSJ_LEN and GT06_LEN are one check and
one layout of bytes each. For PACK_BCD, a pair of digits and its byte determine each other; inductions over the
pairs of a string carry that to the index formula of R123 and to the reference inverse of R128. -/

namespace Sys2Proof.Machine

/-- The response of a command whose result is known. -/
theorem exec_answers_of_resultOf (i : Instr) (s : State) {result : Except ErrorKind Bytes}
    (h : resultOf s.consts i = result) : AnswersWith s (exec i s) (responseOf result) :=
  h ▸ exec_answers i s

/-! ### The integer fields: what each check answers on either side of its bound -/

/-- Two bytes hold the number itself below 2^16 (00_scope.md R12). -/
theorem be16_ofNat {n : Nat} (h : n ≤ 65535) : be16 (BitVec.ofNat 16 n) = twoBytes n := by
  rw [be16_eq_twoBytes, BitVec.toNat_ofNat, Nat.mod_eq_of_lt (by omega)]

/-- `pack_be16` on its range (41_field_codec.md R121). -/
theorem packBe16_of_le {v : Word32} (h : v.toNat ≤ 0xFFFF) : packBe16 v = .ok (twoBytes v.toNat) := by
  rw [packBe16, if_neg (Nat.not_lt.2 h), ← BitVec.ofNat_toNat, be16_ofNat h]

theorem packBe16_of_gt {v : Word32} (h : 0xFFFF < v.toNat) : packBe16 v = .error .invalidInput :=
  if_pos h

/-- `bsj_len` on its range: the raw count (41_field_codec.md R125). -/
theorem bsjLen_of_le {n : Nat} (h : n ≤ 65535) : bsjLen n = .ok (twoBytes n) := by
  rw [bsjLen, bsjBodyLenMax, if_neg (Nat.not_lt.2 h), be16_ofNat h]

theorem bsjLen_of_gt {n : Nat} (h : 65535 < n) : bsjLen n = .error .lengthOverflow := if_pos h

/-- `gt06_len` on its range (41_field_codec.md R127). -/
theorem gt06Len_of_le {n : Nat} (h : 1 + n + 2 + 2 ≤ 255) :
    gt06Len n = .ok [BitVec.ofNat 8 (1 + n + 2 + 2)] := if_neg (Nat.not_lt.2 h)

theorem gt06Len_of_gt {n : Nat} (h : 255 < 1 + n + 2 + 2) : gt06Len n = .error .lengthOverflow :=
  if_pos h

theorem unpackBe16_be16 (v : Word16) : unpackBe16 (be16 v) = some v.toNat := by
  have hv := v.isLt
  have hread : u16be (be16 v) 0 = v.toNat := by
    simp only [be16_eq_twoBytes, twoBytes, u16be, byteAt_cons_zero, byteAt_cons_succ, BitVec.toNat_ofNat]
    omega
  rw [unpackBe16, if_pos (be16_length v), hread]

/-! ### Digit strings and their padding -/

theorem not_digitsMalformed_iff (digits : Bytes) :
    ¬ DigitsMalformed digits ↔ (∀ b ∈ digits, isDigit b = true) ∧ digits.length ≤ 12 := by
  simp only [DigitsMalformed, isDigit_iff, not_or, not_exists, not_and, Nat.not_lt]

theorem padDigits_length {digits : Bytes} (h : digits.length ≤ 12) : (padDigits digits).length = 12 := by
  rw [padDigits, List.length_append, List.length_replicate]
  exact Nat.sub_add_cancel h

/-- The padding is of digits too, so padding keeps a digit string one. -/
theorem isDigit_of_mem_padDigits {digits : Bytes} (h : ∀ b ∈ digits, isDigit b = true) :
    ∀ b ∈ padDigits digits, isDigit b = true := by
  intro b hb
  obtain hpad | hmem := List.mem_append.1 hb
  · rw [List.eq_of_mem_replicate hpad]
    rfl
  · exact h b hmem

/-! ### One pair of digits -/

section Pair

variable {hi lo : Byte} (hhi : isDigit hi = true) (hlo : isDigit lo = true)

include hhi hlo

/-- The first digit of a pair is the high nibble, the second the low one (41_field_codec.md R123). -/
theorem bcdByte_toNat : (bcdByte hi lo).toNat = (hi.toNat - 0x30) * 16 + (lo.toNat - 0x30) := by
  rw [isDigit_iff] at hhi hlo
  simp only [bcdByte, BitVec.toNat_add, BitVec.toNat_mul, BitVec.toNat_sub, BitVec.reduceToNat]
  omega

theorem bcdByte_nibbles :
    (bcdByte hi lo).toNat / 16 = hi.toNat - 0x30 ∧ (bcdByte hi lo).toNat % 16 = lo.toNat - 0x30 := by
  have hbyte := bcdByte_toNat hhi hlo
  rw [isDigit_iff] at hlo
  omega

theorem isBcdByte_bcdByte : isBcdByte (bcdByte hi lo) = true := by
  obtain ⟨hhigh, hlow⟩ := bcdByte_nibbles hhi hlo
  rw [isDigit_iff] at hhi hlo
  simp only [isBcdByte, hhigh, hlow, Bool.and_eq_true, decide_eq_true_eq]
  omega

theorem bcdDigitsOf_bcdByte : bcdDigitsOf (bcdByte hi lo) = [hi, lo] := by
  obtain ⟨hhigh, hlow⟩ := bcdByte_nibbles hhi hlo
  rw [isDigit_iff] at hhi hlo
  rw [bcdDigitsOf, hhigh, hlow, Nat.add_sub_cancel' hhi.1, Nat.add_sub_cancel' hlo.1]
  simp only [BitVec.ofNat_toNat, BitVec.setWidth_eq]

end Pair

/-! ### All pairs of a digit string -/

/-- Byte `i` of the packed string by the index formula of 41_field_codec.md R123. -/
def statedBcdByte (s : Bytes) (i : Nat) : Byte :=
  BitVec.ofNat 8 ((byteAt s (2 * i) - 0x30) * 16 + (byteAt s (2 * i + 1) - 0x30))

theorem statedPhone_eq_map (digits : Bytes) :
    statedPhone digits = (List.range 6).map (statedBcdByte (padDigits digits)) := rfl

theorem statedBcdByte_zero {hi lo : Byte} (hhi : isDigit hi = true) (hlo : isDigit lo = true) (s : Bytes) :
    statedBcdByte (hi :: lo :: s) 0 = bcdByte hi lo := by
  calc statedBcdByte (hi :: lo :: s) 0
      = BitVec.ofNat 8 ((hi.toNat - 0x30) * 16 + (lo.toNat - 0x30)) := rfl
    _ = BitVec.ofNat 8 (bcdByte hi lo).toNat := by rw [bcdByte_toNat hhi hlo]
    _ = bcdByte hi lo := by rw [BitVec.ofNat_toNat, BitVec.setWidth_eq]

/-- The formula's later bytes do not read the first pair. -/
theorem statedBcdByte_comp_succ (hi lo : Byte) (s : Bytes) :
    statedBcdByte (hi :: lo :: s) ∘ Nat.succ = statedBcdByte s := rfl

/-- The packer's pairs are the bytes of the index formula (41_field_codec.md R123). -/
theorem bcdPairs_eq_map : ∀ s : Bytes, (∀ b ∈ s, isDigit b = true) →
    bcdPairs s = (List.range (s.length / 2)).map (statedBcdByte s)
  | [], _ => rfl
  | [_], _ => by
    rw [List.length_singleton]
    rfl
  | hi :: lo :: rest, h => by
    obtain ⟨hhi, htail⟩ := List.forall_mem_cons.1 h
    obtain ⟨hlo, hrest⟩ := List.forall_mem_cons.1 htail
    have hlength : (hi :: lo :: rest).length / 2 = rest.length / 2 + 1 := by
      simp only [List.length_cons]
      omega
    rw [bcdPairs, bcdPairs_eq_map rest hrest, hlength, List.range_succ_eq_map, List.map_cons, List.map_map,
      statedBcdByte_zero hhi hlo, statedBcdByte_comp_succ]

theorem isBcdByte_of_mem_bcdPairs : ∀ s : Bytes, (∀ b ∈ s, isDigit b = true) →
    ∀ b ∈ bcdPairs s, isBcdByte b = true
  | [], _, _, hb => absurd hb List.not_mem_nil
  | [_], _, _, hb => absurd hb List.not_mem_nil
  | hi :: lo :: rest, h, b, hb => by
    obtain ⟨hhi, htail⟩ := List.forall_mem_cons.1 h
    obtain ⟨hlo, hrest⟩ := List.forall_mem_cons.1 htail
    obtain rfl | hmem := List.mem_cons.1 hb
    · exact isBcdByte_bcdByte hhi hlo
    · exact isBcdByte_of_mem_bcdPairs rest hrest b hmem

/-- Unpacking gives the digits back; an odd digit at the end is not packed, so the count is even. -/
theorem flatMap_bcdDigitsOf_bcdPairs : ∀ s : Bytes, (∀ b ∈ s, isDigit b = true) → Even s.length →
    (bcdPairs s).flatMap bcdDigitsOf = s
  | [], _, _ => rfl
  | [_], _, heven => absurd heven Nat.not_even_one
  | hi :: lo :: rest, h, heven => by
    obtain ⟨hhi, htail⟩ := List.forall_mem_cons.1 h
    obtain ⟨hlo, hrest⟩ := List.forall_mem_cons.1 htail
    have heven' : Even rest.length := (Nat.even_add.1 (show Even (rest.length + 2) from heven)).2 even_two
    rw [bcdPairs, List.flatMap_cons, bcdDigitsOf_bcdByte hhi hlo,
      flatMap_bcdDigitsOf_bcdPairs rest hrest heven']
    rfl

theorem bcdUnpack_bcdPairs {s : Bytes} (h : ∀ b ∈ s, isDigit b = true) (heven : Even s.length) :
    bcdUnpack (bcdPairs s) = some s := by
  rw [bcdUnpack, if_pos (List.all_eq_true.2 (isBcdByte_of_mem_bcdPairs s h)),
    flatMap_bcdDigitsOf_bcdPairs s h heven]

/-- A byte with a nibble above 9, as 0x7D and 0x7E have, is not packed (41_field_codec.md R122). -/
theorem not_mem_bcdPairs {s : Bytes} (h : ∀ b ∈ s, isDigit b = true) {b : Byte} (hb : isBcdByte b = false) :
    b ∉ bcdPairs s := fun hmem =>
  absurd (isBcdByte_of_mem_bcdPairs s h b hmem) (Bool.eq_false_iff.1 hb)

/-! ### The packed digit string -/

/-- The pairs of the padded string are the six bytes of the index formula (41_field_codec.md R123). -/
theorem bcdPairs_padDigits {digits : Bytes} (hdigits : ∀ b ∈ digits, isDigit b = true)
    (hlength : digits.length ≤ 12) : bcdPairs (padDigits digits) = statedPhone digits := by
  rw [bcdPairs_eq_map _ (isDigit_of_mem_padDigits hdigits), padDigits_length hlength, statedPhone_eq_map]

theorem bcd12_of_wellFormed {digits : Bytes} (h : ¬ DigitsMalformed digits) :
    bcd12 digits = .ok (statedPhone digits) := by
  obtain ⟨hdigits, hlength⟩ := (not_digitsMalformed_iff digits).1 h
  rw [bcd12, checkDigits_of_wellFormed digits h, ← bcdPairs_padDigits hdigits hlength]

theorem bcd12_of_malformed {digits : Bytes} (h : DigitsMalformed digits) :
    bcd12 digits = .error .invalidInput := by
  rw [bcd12, checkDigits_of_malformed digits h]

theorem statedPhone_length (digits : Bytes) : (statedPhone digits).length = 6 := rfl

/-! ### The statements -/

/-- Settles O38, by the two cases of `bcd12`: the six bytes of the index formula, or InvalidInput. -/
theorem packBcdAnswersSixBytes : Obligations.PackBcdAnswersSixBytes := fun digits s =>
  ⟨fun h => exec_answers_of_resultOf (.packBcd digits) s (bcd12_of_wellFormed h),
    fun h => exec_answers_of_resultOf (.packBcd digits) s (bcd12_of_malformed h)⟩

/-- Settles O39: the inverse of the two bytes by reading them, that of BCD by the pairs of the padded string. -/
theorem packedFieldsUnpack : Obligations.PackedFieldsUnpack := by
  refine ⟨unpackBe16_be16, fun digits h => ⟨_, bcd12_of_wellFormed h, statedPhone_length digits, ?_⟩⟩
  obtain ⟨hdigits, hlength⟩ := (not_digitsMalformed_iff digits).1 h
  have hpadded := isDigit_of_mem_padDigits hdigits
  have heven : Even (padDigits digits).length := padDigits_length hlength ▸ by decide
  rw [← bcdPairs_padDigits hdigits hlength]
  exact ⟨bcdUnpack_bcdPairs hpadded heven, not_mem_bcdPairs hpadded rfl, not_mem_bcdPairs hpadded rfl⟩

/-- Settles O37, by the two cases of `packBe16`. -/
theorem packBe16AnswersTwoBytes : Obligations.PackBe16AnswersTwoBytes := fun v s =>
  ⟨fun h => exec_answers_of_resultOf (.packBe16 v) s (packBe16_of_le h),
    fun h => exec_answers_of_resultOf (.packBe16 v) s (packBe16_of_gt h)⟩

/-- Settles O40, by the two cases of `bsjLen`. -/
theorem bsjLenAnswersTheRawCount : Obligations.BsjLenAnswersTheRawCount := fun v s =>
  ⟨fun h => exec_answers_of_resultOf (.bsjLen v) s (bsjLen_of_le h),
    fun h => exec_answers_of_resultOf (.bsjLen v) s (bsjLen_of_gt h)⟩

/-- Settles O41, by the two cases of `gt06Len`. -/
theorem gt06LenAnswersThePacketLength : Obligations.Gt06LenAnswersThePacketLength := fun v s =>
  ⟨fun h => exec_answers_of_resultOf (.gt06Len v) s (gt06Len_of_le h),
    fun h => exec_answers_of_resultOf (.gt06Len v) s (gt06Len_of_gt h)⟩

end Sys2Proof.Machine
end

