-- ==== Sys2Proof/Proofs/Escaper.lean ====
section
/-! PROOF. The escaper (42_escaper.md R141 to R143). A byte string is empty or starts with a 0x7E, a 0x7D or another
byte; the escaper has one equation for each, and so have the count of the bytes it doubles and the scan of the
reference inverse. The laws follow by that induction; that a scanned string without 0x7E is the escape of its value
follows by the scan's own recursion. -/

namespace Sys2Proof.Machine

/-- Induction on a byte string by the escaper's three cases of the first byte (42_escaper.md R141). -/
theorem reservedInduction {motive : Bytes → Prop} (nil : motive [])
    (flag : ∀ s, motive s → motive (0x7E :: s)) (esc : ∀ s, motive s → motive (0x7D :: s))
    (other : ∀ b s, b ≠ 0x7E → b ≠ 0x7D → motive s → motive (b :: s)) (s : Bytes) : motive s := by
  induction s with
  | nil => exact nil
  | cons b s ih =>
    by_cases hf : b = 0x7E
    · exact hf ▸ flag s ih
    · by_cases he : b = 0x7D
      · exact he ▸ esc s ih
      · exact other b s hf he ih

/-! ### The escaper and the count of reserved bytes, by the first byte -/

theorem escape_cons_flag (s : Bytes) : escape (0x7E :: s) = 0x7D :: 0x02 :: escape s := rfl

theorem escape_cons_esc (s : Bytes) : escape (0x7D :: s) = 0x7D :: 0x01 :: escape s := rfl

theorem escape_cons_other {b : Byte} (hf : b ≠ 0x7E) (he : b ≠ 0x7D) (s : Bytes) :
    escape (b :: s) = b :: escape s := by
  rw [escape_cons, escapeByte_other b hf he, List.singleton_append]

theorem reservedCount_cons_flag (s : Bytes) : reservedCount (0x7E :: s) = reservedCount s + 1 :=
  List.countP_cons_of_pos rfl

theorem reservedCount_cons_esc (s : Bytes) : reservedCount (0x7D :: s) = reservedCount s + 1 :=
  List.countP_cons_of_pos rfl

theorem reservedCount_cons_other {b : Byte} (hf : b ≠ 0x7E) (he : b ≠ 0x7D) (s : Bytes) :
    reservedCount (b :: s) = reservedCount s :=
  List.countP_cons_of_neg <| by
    rw [Bool.or_eq_true, beq_iff_eq, beq_iff_eq]
    exact not_or.2 ⟨hf, he⟩

/-! ### The laws of 42_escaper.md R142 -/

theorem escape_length (s : Bytes) : (escape s).length = s.length + reservedCount s := by
  induction s using reservedInduction with
  | nil => rfl
  | flag s ih =>
    rw [escape_cons_flag, reservedCount_cons_flag, List.length_cons, List.length_cons, List.length_cons, ih]
    omega
  | esc s ih =>
    rw [escape_cons_esc, reservedCount_cons_esc, List.length_cons, List.length_cons, List.length_cons, ih]
    omega
  | other b s hf he ih =>
    rw [escape_cons_other hf he, reservedCount_cons_other hf he, List.length_cons, List.length_cons, ih]
    omega

theorem flag_not_mem_escape (s : Bytes) : 0x7E ∉ escape s := by
  induction s using reservedInduction with
  | nil => exact List.not_mem_nil
  | flag s ih =>
    exact List.not_mem_cons_of_ne_of_not_mem (by decide)
      (List.not_mem_cons_of_ne_of_not_mem (by decide) ih)
  | esc s ih =>
    exact List.not_mem_cons_of_ne_of_not_mem (by decide)
      (List.not_mem_cons_of_ne_of_not_mem (by decide) ih)
  | other b s hf he ih =>
    rw [escape_cons_other hf he]
    exact List.not_mem_cons_of_ne_of_not_mem hf.symm ih

/-- Every 0x7D is followed at once by the second byte of an escape. -/
def EscPaired (t : Bytes) : Prop :=
  ∀ i : Nat, t[i]? = some 0x7D → t[i + 1]? = some 0x01 ∨ t[i + 1]? = some 0x02

theorem EscPaired.cons_other {b : Byte} {t : Bytes} (hb : b ≠ 0x7D) (ht : EscPaired t) : EscPaired (b :: t)
  | 0, h => absurd (Option.some.inj h) hb
  | i + 1, h => ht i h

theorem EscPaired.cons_pair {code : Byte} {t : Bytes} (hcode : code = 0x01 ∨ code = 0x02)
    (ht : EscPaired t) : EscPaired (0x7D :: code :: t)
  | 0, _ => hcode.imp (congrArg some) (congrArg some)
  | i + 1, h => by
    have hne : code ≠ 0x7D := by rcases hcode with rfl | rfl <;> decide
    exact ht.cons_other hne i h

theorem escPaired_escape (s : Bytes) : EscPaired (escape s) := by
  induction s using reservedInduction with
  | nil => exact fun _ h => nomatch h
  | flag s ih => exact ih.cons_pair (.inr rfl)
  | esc s ih => exact ih.cons_pair (.inl rfl)
  | other b s hf he ih =>
    rw [escape_cons_other hf he]
    exact ih.cons_other he

theorem escape_eq_self {s : Bytes} (hflag : 0x7E ∉ s) (hesc : 0x7D ∉ s) : escape s = s := by
  induction s with
  | nil => rfl
  | cons b s ih =>
    obtain ⟨hf, hflag⟩ := List.ne_and_not_mem_of_not_mem_cons hflag
    obtain ⟨he, hesc⟩ := List.ne_and_not_mem_of_not_mem_cons hesc
    rw [escape_cons_other hf.symm he.symm, ih hflag hesc]

/-! ### The scan of 42_escaper.md R143, by the first byte -/

theorem unescapeScan_cons_other {b : Byte} (hb : b ≠ 0x7D) (t : Bytes) :
    unescapeScan (b :: t) = (unescapeScan t).map (b :: ·) :=
  (unescapeScan.eq_def _).trans (if_neg hb)

theorem unescapeScan_flag_pair (t : Bytes) :
    unescapeScan (0x7D :: 0x02 :: t) = (unescapeScan t).map (0x7E :: ·) := rfl

theorem unescapeScan_esc_pair (t : Bytes) :
    unescapeScan (0x7D :: 0x01 :: t) = (unescapeScan t).map (0x7D :: ·) := rfl

theorem unescapeScan_bad_pair {b : Byte} (hesc : b ≠ 0x01) (hflag : b ≠ 0x02) (t : Bytes) :
    unescapeScan (0x7D :: b :: t) = none :=
  (if_neg hflag).trans (if_neg hesc)

/-! ### The scan and the escaper are inverse to each other -/

theorem unescapeScan_escape (s : Bytes) : unescapeScan (escape s) = some s := by
  induction s using reservedInduction with
  | nil => rfl
  | flag s ih => rw [escape_cons_flag, unescapeScan_flag_pair, ih, Option.map_some]
  | esc s ih => rw [escape_cons_esc, unescapeScan_esc_pair, ih, Option.map_some]
  | other b s hf he ih =>
    rw [escape_cons_other hf he, unescapeScan_cons_other he, ih, Option.map_some]

/-- What the scan reads is the escape of its value, unless it copied a 0x7E. -/
theorem escape_of_unescapeScan {t s : Bytes} (h : unescapeScan t = some s) (hflag : 0x7E ∉ t) :
    escape s = t := by
  induction t using unescapeScan.induct generalizing s with
  | case1 =>
    cases h
    rfl
  | case2 => cases h
  | case3 t ih =>
    obtain ⟨u, hu, rfl⟩ := Option.map_eq_some_iff.1 ((unescapeScan_flag_pair t).symm.trans h)
    have hrest : 0x7E ∉ t := fun hmem => hflag (.tail _ (.tail _ hmem))
    exact (escape_cons_flag u).trans (congrArg (0x7D :: 0x02 :: ·) (ih hu hrest))
  | case4 t _ ih =>
    obtain ⟨u, hu, rfl⟩ := Option.map_eq_some_iff.1 ((unescapeScan_esc_pair t).symm.trans h)
    have hrest : 0x7E ∉ t := fun hmem => hflag (.tail _ (.tail _ hmem))
    exact (escape_cons_esc u).trans (congrArg (0x7D :: 0x01 :: ·) (ih hu hrest))
  | case5 code t hcodeFlag hcodeEsc =>
    cases (unescapeScan_bad_pair hcodeEsc hcodeFlag t).symm.trans h
  | case6 b t hb ih =>
    rw [unescapeScan_cons_other hb] at h
    obtain ⟨u, hu, rfl⟩ := Option.map_eq_some_iff.1 h
    obtain ⟨hf, hflag⟩ := List.ne_and_not_mem_of_not_mem_cons hflag
    rw [escape_cons_other hf.symm hb, ih hu hflag]

theorem unescape_eq_some_iff (t s : Bytes) : unescape t = some s ↔ t = escape s := by
  constructor
  · intro h
    by_cases hflag : 0x7E ∈ t
    · rw [unescape_of_flag_mem hflag] at h
      cases h
    · rw [unescape_of_flag_not_mem hflag] at h
      exact (escape_of_unescapeScan h hflag).symm
  · rintro rfl
    rw [unescape_of_flag_not_mem (flag_not_mem_escape s), unescapeScan_escape]

/-! ### The statements -/

/-- Settles O34, by the laws above and the concatenation law of the byte-serial escaper. -/
theorem escaperLaws : Obligations.EscaperLaws :=
  ⟨escape_length, flag_not_mem_escape, escPaired_escape, escape_append, fun _ => escape_eq_self, rfl, rfl⟩

/-- Settles O35: the scan's equations, the two inverse laws, and the refusal of a string with a 0x7E. -/
theorem unescapeInvertsEscape : Obligations.UnescapeInvertsEscape :=
  ⟨rfl, fun _ t hb => unescapeScan_cons_other hb t, unescapeScan_flag_pair, unescapeScan_esc_pair,
    fun _ t hesc hflag => unescapeScan_bad_pair hesc hflag t, rfl, unescapeScan_escape,
    fun _ _ => escape_of_unescapeScan, fun _ => unescape_of_flag_not_mem, fun _ => unescape_of_flag_mem,
    unescape_eq_some_iff⟩

/-- Settles O33: the result of ESCAPE is the escaped string, each byte by R141. -/
theorem escapeAnswersTheStuffedBytes : Obligations.EscapeAnswersTheStuffedBytes :=
  fun data s => exec_answers (.escape data) s

end Sys2Proof.Machine
end

