-- ==== Sys2Proof/Proofs/Framer.lean ====
section
/-! PROOF. The framer (43_framer.md R150 to R153). The selector of FRAME picks one of the two frames. Between its
flags a BSJ frame holds an escaped run, so its laws are those of the escaper and of a run without the flag byte
between two flags. Everything around the RawFrame of a GT06 frame has a fixed length, and the packet-length byte that
BUILD_GT06 checks is the RawFrame's length less one plus the two bytes of the CRC. -/

namespace Sys2Proof.Machine

/-! ### The selector (30_encoding.md R73) -/

theorem selectProtocol_other (c : Constants) {p : Byte} (hbsj : p ≠ 0x00) (hgt06 : p ≠ 0x01) :
    selectProtocol c p = .error .invalidInput :=
  (if_neg hbsj).trans (if_neg hgt06)

theorem frameResult_bsj (c : Constants) (raw : Bytes) : frameResult c 0x00 raw = .ok (frame c c.bsj raw) := rfl

theorem frameResult_gt06 (c : Constants) (raw : Bytes) : frameResult c 0x01 raw = .ok (frame c c.gt06 raw) := rfl

theorem frameResult_other (c : Constants) {p : Byte} (hbsj : p ≠ 0x00) (hgt06 : p ≠ 0x01) (raw : Bytes) :
    frameResult c p raw = .error .invalidInput := by
  rw [frameResult, selectProtocol_other c hbsj hgt06]

/-! ### A run between two flags -/

theorem flagged_length (flag : Byte) (run : Bytes) : ([flag] ++ run ++ [flag]).length = run.length + 2 := by
  simp

/-- What stands between the flags, by its offset and length. -/
theorem substring_flagged (flag : Byte) (run : Bytes) :
    substring ([flag] ++ run ++ [flag]) 1 run.length = run :=
  substring_zero_append_length run [flag]

/-- A flag that does not occur in the run occurs exactly at the two ends. -/
theorem getElem?_flagged_eq_some_iff {flag : Byte} {run : Bytes} (h : flag ∉ run) (i : Nat) :
    ([flag] ++ run ++ [flag])[i]? = some flag ↔ i = 0 ∨ i + 1 = ([flag] ++ run ++ [flag]).length := by
  rw [flagged_length]
  cases i with
  | zero => exact iff_of_true rfl (.inl rfl)
  | succ i =>
    have hshift : ([flag] ++ run ++ [flag])[i + 1]? = (run ++ [flag])[i]? := rfl
    rw [hshift]
    obtain hin | rfl | hpast := Nat.lt_trichotomy i run.length
    · rw [List.getElem?_append_left hin]
      exact iff_of_false (fun hi => h (List.mem_of_getElem? hi)) (by omega)
    · exact iff_of_true List.getElem?_concat_length (.inr rfl)
    · rw [List.getElem?_eq_none (by rw [List.length_append, List.length_singleton]; omega)]
      exact iff_of_false nofun (by omega)

/-! ### The two frames (43_framer.md R153) -/

theorem frame_bsjSpec_length (c : Constants) (raw : Bytes) :
    (frame c bsjSpec raw).length = raw.length + 3 + reservedCount (raw ++ [xor8 raw]) := by
  rw [frame_bsjSpec, flagged_length, escape_length, List.length_append, List.length_singleton]
  omega

/-- The receiver's first step: the bytes between the flags un-escape to the RawFrame and its checksum. -/
theorem unescape_substring_frame_bsjSpec (c : Constants) (raw : Bytes) :
    unescape (substring (frame c bsjSpec raw) 1 ((frame c bsjSpec raw).length - 2)) =
      some (raw ++ [xor8 raw]) := by
  rw [unescape_eq_some_iff, frame_bsjSpec, flagged_length, Nat.add_sub_cancel, substring_flagged]

theorem frame_gt06Spec_length (c : Constants) (raw : Bytes) :
    (frame c gt06Spec raw).length = raw.length + 6 := by
  simp only [frame_gt06Spec, List.length_append, be16_length, List.length_cons, List.length_nil]
  omega

/-- Behind its two start bytes a GT06 frame is the RawFrame as it is. -/
theorem byteAt_frame_gt06Spec_cons (c : Constants) (b : Byte) (raw : Bytes) :
    byteAt (frame c gt06Spec (b :: raw)) 2 = b.toNat := rfl

/-! ### The frames that BUILD_GT06 builds -/

theorem gt06Len_eq_ok {n : Nat} {out : Bytes} (h : gt06Len n = .ok out) :
    1 + n + 2 + 2 ≤ 255 ∧ out = [BitVec.ofNat 8 (1 + n + 2 + 2)] := by
  obtain hgt | hle := Nat.lt_or_ge 255 (1 + n + 2 + 2)
  · rw [gt06Len_of_gt hgt] at h
    cases h
  · rw [gt06Len_of_le hle] at h
    exact ⟨hle, (Except.ok.inj h).symm⟩

/-- A BUILD_GT06 that succeeds has passed its five checks, in the order of 45_builder_gt06.md R175. -/
theorem buildGt06Result_eq_ok {c : Constants} {serial : Word32} {lang : Byte} {text f : Bytes}
    (h : buildGt06Result c serial lang text = .ok f) :
    ∃ sn code ascii cmdlen pl, checkSerial serial = .ok sn ∧ selectLanguage c lang = .ok code ∧
      checkAscii text = .ok ascii ∧ checkCmdLength ascii = .ok cmdlen ∧
      gt06Len (gt06Info c cmdlen ascii code).length = .ok pl ∧
      f = frame c c.gt06 (gt06Raw c pl (gt06Info c cmdlen ascii code) sn) := by
  unfold buildGt06Result at h
  split at h
  · cases h
  next sn hserial =>
  split at h
  · cases h
  next code hlang =>
  split at h
  · cases h
  next ascii hascii =>
  split at h
  · cases h
  next cmdlen hcmdlen =>
  split at h
  · cases h
  next pl hpl =>
  exact ⟨sn, code, ascii, cmdlen, pl, hserial, hlang, hascii, hcmdlen, hpl, (Except.ok.inj h).symm⟩

/-- The GT06 RawFrame of the stated layout (45_builder_gt06.md R173). -/
theorem gt06Raw_statedConstants (pl info : Bytes) (sn : Word16) :
    gt06Raw statedConstants pl info sn = pl ++ (0x80 :: (info ++ be16 sn)) := by
  simp [gt06Raw, assembleRaw, fieldBytes, statedConstants, gt06Spec]

/-- The packet length counts the RawFrame behind its own byte and the CRC (41_field_codec.md R127), so the frame,
with the two delimiters, is five bytes longer. -/
theorem buildGt06Result_length {serial : Word32} {lang : Byte} {text f : Bytes}
    (h : buildGt06Result statedConstants serial lang text = .ok f) : f.length = byteAt f 2 + 5 := by
  obtain ⟨sn, code, ascii, cmdlen, pl, -, -, -, -, hpl, rfl⟩ := buildGt06Result_eq_ok h
  obtain ⟨hfits, rfl⟩ := gt06Len_eq_ok hpl
  have hspec : statedConstants.gt06 = gt06Spec := rfl
  rw [gt06Raw_statedConstants, hspec, frame_gt06Spec_length, List.singleton_append,
    byteAt_frame_gt06Spec_cons, BitVec.toNat_ofNat]
  simp only [List.length_cons, List.length_append, be16_length]
  omega

/-! ### The statements -/

/-- Settles O43: the BSJ frame as an escaped run between two flags, the GT06 frame as fixed bytes around the RawFrame,
and the packet length of a built frame. -/
theorem framerLaws : Obligations.FramerLaws := by
  refine ⟨?bsj, ?gt06, fun _ _ _ _ => buildGt06Result_length⟩
  case bsj =>
    rintro raw _ rfl
    exact ⟨frame_bsjSpec _ raw, getElem?_flagged_eq_some_iff (flag_not_mem_escape _),
      (flagged_length _ _).symm ▸ Nat.le_add_left 2 _, frame_bsjSpec_length _ raw,
      unescape_substring_frame_bsjSpec _ raw, xor8_append_xor8 raw⟩
  case gt06 =>
    rintro raw _ rfl
    exact ⟨rfl, frame_gt06Spec_length _ raw⟩

/-- Settles O42, by the selector's three cases; the frames are those of the stated constants. -/
theorem frameAnswersTheFrame : Obligations.FrameAnswersTheFrame := by
  intro p raw s hconsts
  have hanswer := exec_answers (.frame p raw) s
  rw [resultOf, hconsts] at hanswer
  refine ⟨?bsj, ?gt06, fun hbsj hgt06 => ?other⟩
  case bsj =>
    rintro rfl
    rw [frameResult_bsj] at hanswer
    exact hanswer
  case gt06 =>
    rintro rfl
    rw [frameResult_gt06] at hanswer
    rw [← be16_eq_twoBytes]
    exact hanswer
  case other =>
    rw [frameResult_other _ hbsj hgt06] at hanswer
    exact hanswer

end Sys2Proof.Machine
end

