-- ==== Sys2Proof/Proofs/BuilderBsj.lean ====
section
/-! PROOF. The BSJ frame builder (44_builder_bsj.md R160 to R164). BUILD_BSJ makes its three checks in order and each
one either raises its error or gives a part of the RawFrame. Where all three give their parts, the frame is FRAME's on
those parts (O47); that the parts exist exactly when the operands are in range is the law of each check. -/

namespace Sys2Proof.Machine

/-! ### The parts of the RawFrame -/

theorem bsjBody_length (c : Constants) (text : Bytes) : (bsjBody c text).length = 1 + text.length :=
  Nat.add_comm _ 1

/-- The serial check of the builder passes what PACK_BE16 packs, as the value that it packs. -/
theorem packBe16_eq_ok {v : Word32} {out : Bytes} (h : packBe16 v = .ok out) :
    ∃ sn, checkSerial v = .ok sn ∧ out = be16 sn := by
  obtain hgt | hle := Nat.lt_or_ge 65535 v.toNat
  · rw [packBe16_of_gt hgt] at h
    cases h
  · rw [packBe16, if_neg (Nat.not_lt.2 hle)] at h
    exact ⟨v.setWidth 16, checkSerial_of_le v hle, (Except.ok.inj h).symm⟩

/-- The BSJ RawFrame of the stated layout (44_builder_bsj.md R161, R162). -/
theorem bsjRaw_statedConstants (bodyLength phone text : Bytes) (sn : Word16) :
    bsjRaw statedConstants bodyLength phone sn (bsjBody statedConstants text) =
      [0x83, 0x00] ++ bodyLength ++ phone ++ be16 sn ++ ([0x00] ++ text) := by
  have hid : be16 statedConstants.messageId = [0x83, 0x00] := by decide
  rw [bsjRaw, hid]
  simp [assembleRaw, fieldBytes, statedConstants, bsjSpec, bsjBody]

/-- The fields before the text take 13 bytes (44_builder_bsj.md R161, R162). -/
theorem statedBsjRaw_length (serial : Word32) (digits text : Bytes) :
    (statedBsjRaw serial digits text).length = text.length + 13 := by
  simp only [statedBsjRaw, List.length_append, List.length_cons, List.length_nil, twoBytes_length,
    statedPhone_length]
  omega

/-! ### The checks in the order of 44_builder_bsj.md R163 -/

theorem not_bsjInputInvalid_iff (serial : Word32) (digits : Bytes) :
    ¬ BsjInputInvalid serial digits ↔ serial.toNat ≤ 65535 ∧ ¬ DigitsMalformed digits := by
  rw [BsjInputInvalid, not_or, Nat.not_lt]

section Checks

variable (c : Constants) {serial : Word32} {digits text : Bytes}

/-- Each check passes and gives its part. -/
theorem buildBsjResult_of_parts {sn : Word16} {phone bodyLength : Bytes} (hserial : checkSerial serial = .ok sn)
    (hphone : bcd12 digits = .ok phone) (hlength : bsjLen (1 + text.length) = .ok bodyLength) :
    buildBsjResult c serial digits text = .ok (frame c c.bsj (bsjRaw c bodyLength phone sn (bsjBody c text))) := by
  rw [buildBsjResult, hserial, hphone, bsjBody_length, hlength]

/-- The first two checks raise InvalidInput, and the text is not looked at. -/
theorem buildBsjResult_of_inputInvalid (h : BsjInputInvalid serial digits) :
    buildBsjResult c serial digits text = .error .invalidInput := by
  obtain hgt | hle := Nat.lt_or_ge 65535 serial.toNat
  · rw [buildBsjResult, checkSerial_of_gt serial hgt]
  · have hdigits : DigitsMalformed digits := h.resolve_left (Nat.not_lt.2 hle)
    rw [buildBsjResult, checkSerial_of_le serial hle, bcd12_of_malformed hdigits]

/-- The third check raises LengthOverflow, once the first two have passed. -/
theorem buildBsjResult_of_bodyTooLong (h : ¬ BsjInputInvalid serial digits) (hlong : 65535 < 1 + text.length) :
    buildBsjResult c serial digits text = .error .lengthOverflow := by
  obtain ⟨hserial, hdigits⟩ := (not_bsjInputInvalid_iff serial digits).1 h
  rw [buildBsjResult, checkSerial_of_le serial hserial, bcd12_of_wellFormed hdigits, bsjBody_length,
    bsjLen_of_gt hlong]

/-- A BUILD_BSJ that succeeds has passed its checks. -/
theorem inRange_of_buildBsjResult_eq_ok {f : Bytes} (h : buildBsjResult c serial digits text = .ok f) :
    ¬ BsjInputInvalid serial digits ∧ 1 + text.length ≤ 65535 := by
  have hvalid : ¬ BsjInputInvalid serial digits := fun hinvalid => by
    rw [buildBsjResult_of_inputInvalid c hinvalid] at h
    cases h
  refine ⟨hvalid, Nat.not_lt.1 fun hlong => ?_⟩
  rw [buildBsjResult_of_bodyTooLong c hvalid hlong] at h
  cases h

end Checks

/-! ### The statements -/

/-- Settles O47: the builder's three parts are the results of the primitive commands, and its layout is the stated
one. -/
theorem buildBsjIsItsPrimitivesComposed : Obligations.BuildBsjIsItsPrimitivesComposed := by
  intro serial digits text r1 r2 r3 hserial hphone hlength
  obtain ⟨sn, hsn, rfl⟩ := packBe16_eq_ok hserial
  rw [buildBsjResult_of_parts _ hsn hphone hlength, bsjRaw_statedConstants, frameResult_bsj]

/-- Operands in range give the frame of the stated RawFrame: the composition of O47 with each primitive on its
range. -/
theorem buildBsjResult_statedConstants {serial : Word32} {digits text : Bytes}
    (h : ¬ BsjInputInvalid serial digits) (hfits : 1 + text.length ≤ 65535) :
    buildBsjResult statedConstants serial digits text =
      .ok (frame statedConstants bsjSpec (statedBsjRaw serial digits text)) := by
  obtain ⟨hserial, hdigits⟩ := (not_bsjInputInvalid_iff serial digits).1 h
  rw [buildBsjIsItsPrimitivesComposed serial digits text _ _ _ (packBe16_of_le hserial)
    (bcd12_of_wellFormed hdigits) (bsjLen_of_le hfits), frameResult_bsj, statedBsjRaw, List.append_assoc _ [0x00]]
  rfl

/-- Settles O44: the result is the frame of the stated RawFrame, and that frame is the escaped run between flags. -/
theorem buildBsjAnswersTheFrame : Obligations.BuildBsjAnswersTheFrame := by
  rintro serial digits text _ s hconsts hvalid hfits rfl
  have hresult : resultOf s.consts (.buildBsj serial digits text) =
      .ok (frame statedConstants bsjSpec (statedBsjRaw serial digits text)) :=
    hconsts ▸ buildBsjResult_statedConstants hvalid hfits
  exact exec_answers_of_resultOf _ s hresult

/-- Settles O45, by the checks in their order. -/
theorem buildBsjErrorOrder : Obligations.BuildBsjErrorOrder := fun serial digits text s =>
  ⟨fun hinvalid => exec_answers_of_resultOf (.buildBsj serial digits text) s
      (buildBsjResult_of_inputInvalid s.consts hinvalid),
    fun hvalid hlong => exec_answers_of_resultOf (.buildBsj serial digits text) s
      (buildBsjResult_of_bodyTooLong s.consts hvalid hlong)⟩

/-- Settles O46: a frame that was built is that of the stated RawFrame, of n + 13 bytes, and a BSJ frame adds the
checksum, two flags and one byte for each byte escaped. -/
theorem bsjFrameSize : Obligations.BsjFrameSize := by
  rintro serial digits text _ f hbuilt rfl
  obtain ⟨hvalid, hfits⟩ := inRange_of_buildBsjResult_eq_ok statedConstants hbuilt
  rw [buildBsjResult_statedConstants hvalid hfits] at hbuilt
  obtain rfl := Except.ok.inj hbuilt
  rw [frame_bsjSpec_length, statedBsjRaw_length]

end Sys2Proof.Machine
end

/-! PROOF. The GT06 frame builder (45_builder_gt06.md R170 to R175). BUILD_GT06 makes its five checks in order; the last
two both bound the text's length, and the packet length is the tighter bound. So each range of the operands has one
result: the frame of the stated RawFrame where all are in range, and otherwise the error of the first check that fails.
The document's literal is that frame for one command, with its CRC evaluated. -/

namespace Sys2Proof.Machine

/-! ### The operands (45_builder_gt06.md R170) -/

theorem not_gt06InputInvalid_iff (serial : Word32) (lang : Byte) :
    ¬ Gt06InputInvalid serial lang ↔ serial.toNat ≤ 65535 ∧ (lang = 0x01 ∨ lang = 0x02) := by
  rw [Gt06InputInvalid, not_or, Nat.not_lt, not_and_or, not_ne_iff, not_ne_iff]

/-- The code that a legal language selector picks (30_encoding.md R74). -/
def languageCode (c : Constants) (lang : Byte) : Word16 :=
  if lang = 0x01 then c.langChinese else c.langEnglish

theorem selectLanguage_of_legal (c : Constants) {lang : Byte} (h : lang = 0x01 ∨ lang = 0x02) :
    selectLanguage c lang = .ok (languageCode c lang) := by
  obtain rfl | rfl := h <;> rfl

theorem selectLanguage_other (c : Constants) {lang : Byte} (hzh : lang ≠ 0x01) (hen : lang ≠ 0x02) :
    selectLanguage c lang = .error .invalidInput :=
  (if_neg hzh).trans (if_neg hen)

theorem languageCode_statedConstants (lang : Byte) :
    be16 (languageCode statedConstants lang) = twoBytes (if lang = 0x01 then 0x0001 else 0x0002) := by
  rw [be16_eq_twoBytes, languageCode]
  split <;> rfl

theorem isAscii_iff (b : Byte) : isAscii b = true ↔ b.toNat ≤ 0x7F := decide_eq_true_iff

theorem checkAscii_of_ascii {text : Bytes} (h : ∀ b ∈ text, b.toNat ≤ 0x7F) : checkAscii text = .ok text :=
  if_pos (List.all_eq_true.2 fun b hb => (isAscii_iff b).2 (h b hb))

theorem checkAscii_of_not_ascii {text : Bytes} (h : ∃ b ∈ text, 0x7F < b.toNat) :
    checkAscii text = .error .encodingFailure := by
  obtain ⟨b, hb, hlarge⟩ := h
  exact if_neg fun hall => Nat.not_le.2 hlarge ((isAscii_iff b).1 (List.all_eq_true.1 hall b hb))

/-! ### The length fields (45_builder_gt06.md R171, R172) -/

theorem checkCmdLength_of_le {text : Bytes} (h : 4 + text.length ≤ 255) :
    checkCmdLength text = .ok (BitVec.ofNat 8 (4 + text.length)) := if_neg (Nat.not_lt.2 h)

theorem checkCmdLength_of_gt {text : Bytes} (h : 255 < 4 + text.length) :
    checkCmdLength text = .error .lengthOverflow := if_pos h

/-- The command-length byte, the server flag and the language code stand beside the text. -/
theorem gt06Info_length (c : Constants) (cmdlen : Byte) (text : Bytes) (code : Word16) :
    (gt06Info c cmdlen text code).length = text.length + 7 := by
  simp only [gt06Info, List.length_append, List.length_singleton, be32_length, be16_length]
  omega

/-! ### The stated RawFrame (45_builder_gt06.md R173) -/

/-- The fields around the text take 11 bytes. -/
theorem statedGt06Raw_length (serial : Word32) (code : Nat) (text : Bytes) :
    (statedGt06Raw serial code text).length = text.length + 11 := by
  simp only [statedGt06Raw, List.length_append, List.length_cons, List.length_nil, twoBytes_length]
  omega

/-- A serial number in range keeps its value in the two bytes of its field. -/
theorem be16_setWidth {serial : Word32} (h : serial.toNat ≤ 65535) :
    be16 (serial.setWidth 16) = twoBytes serial.toNat := by
  rw [← BitVec.ofNat_toNat, be16_ofNat h]

/-- The builder's layout, with the stated constants and the parts that its checks give, is the stated one. -/
theorem gt06Raw_eq_statedGt06Raw {serial : Word32} (lang : Byte) (text : Bytes) (hserial : serial.toNat ≤ 65535) :
    gt06Raw statedConstants [BitVec.ofNat 8 (text.length + 12)]
        (gt06Info statedConstants (BitVec.ofNat 8 (4 + text.length)) text (languageCode statedConstants lang))
        (serial.setWidth 16) =
      statedGt06Raw serial (if lang = 0x01 then 0x0001 else 0x0002) text := by
  have hflag : be32 statedConstants.serverFlag = [0x00, 0x00, 0x00, 0x01] := by decide
  rw [gt06Raw_statedConstants, gt06Info, hflag, languageCode_statedConstants, be16_setWidth hserial]
  rfl

/-- The GT06 frame with the stated ROM (45_builder_gt06.md R173). -/
theorem frame_gt06Spec_statedConstants (raw : Bytes) :
    frame statedConstants gt06Spec raw =
      [0x78, 0x78] ++ raw ++ twoBytes (crc16X25 crcTable raw).toNat ++ [0x0D, 0x0A] := by
  rw [frame_gt06Spec, be16_eq_twoBytes, ← List.append_assoc [0x78, 0x78]]
  rfl

/-! ### The checks in the order of 45_builder_gt06.md R175 -/

section Checks

variable (c : Constants) {serial : Word32} {lang : Byte} {text : Bytes}

/-- The first two checks raise InvalidInput, and the text is not looked at. -/
theorem buildGt06Result_of_inputInvalid (h : Gt06InputInvalid serial lang) :
    buildGt06Result c serial lang text = .error .invalidInput := by
  obtain hgt | hle := Nat.lt_or_ge 65535 serial.toNat
  · rw [buildGt06Result, checkSerial_of_gt serial hgt]
  · obtain ⟨hzh, hen⟩ := h.resolve_left (Nat.not_lt.2 hle)
    rw [buildGt06Result, checkSerial_of_le serial hle, selectLanguage_other c hzh hen]

/-- The third check raises EncodingFailure, once the first two have passed; the length is not looked at. -/
theorem buildGt06Result_of_not_ascii (h : ¬ Gt06InputInvalid serial lang) (htext : ∃ b ∈ text, 0x7F < b.toNat) :
    buildGt06Result c serial lang text = .error .encodingFailure := by
  obtain ⟨hserial, hlang⟩ := (not_gt06InputInvalid_iff serial lang).1 h
  rw [buildGt06Result, checkSerial_of_le serial hserial, selectLanguage_of_legal c hlang,
    checkAscii_of_not_ascii htext]

/-- A text too long for the packet length raises LengthOverflow, by the command length already or by the packet
length alone. -/
theorem buildGt06Result_of_packetTooLong (h : ¬ Gt06InputInvalid serial lang)
    (htext : ∀ b ∈ text, b.toNat ≤ 0x7F) (hlong : 255 < text.length + 12) :
    buildGt06Result c serial lang text = .error .lengthOverflow := by
  obtain ⟨hserial, hlang⟩ := (not_gt06InputInvalid_iff serial lang).1 h
  simp only [buildGt06Result, checkSerial_of_le serial hserial, selectLanguage_of_legal c hlang,
    checkAscii_of_ascii htext]
  obtain hcmdlen | hcmdlen := Nat.lt_or_ge 255 (4 + text.length)
  · simp only [checkCmdLength_of_gt hcmdlen]
  · have hpacket : 255 < 1 + (text.length + 7) + 2 + 2 := by omega
    simp only [checkCmdLength_of_le hcmdlen, gt06Info_length, gt06Len_of_gt hpacket]

/-- Operands in range pass every check. -/
theorem buildGt06Result_of_inRange (h : ¬ Gt06InputInvalid serial lang) (htext : ∀ b ∈ text, b.toNat ≤ 0x7F)
    (hfits : text.length + 12 ≤ 255) :
    buildGt06Result c serial lang text =
      .ok (frame c c.gt06 (gt06Raw c [BitVec.ofNat 8 (text.length + 12)]
        (gt06Info c (BitVec.ofNat 8 (4 + text.length)) text (languageCode c lang)) (serial.setWidth 16))) := by
  obtain ⟨hserial, hlang⟩ := (not_gt06InputInvalid_iff serial lang).1 h
  have hcmdlen : 4 + text.length ≤ 255 := by omega
  have hpacket : 1 + (text.length + 7) + 2 + 2 = text.length + 12 := by omega
  simp only [buildGt06Result, checkSerial_of_le serial hserial, selectLanguage_of_legal c hlang,
    checkAscii_of_ascii htext, checkCmdLength_of_le hcmdlen, gt06Info_length, gt06Len_of_le (hpacket.trans_le hfits),
    hpacket]

/-- A BUILD_GT06 that succeeds has its operands in range. -/
theorem inRange_of_buildGt06Result_eq_ok {f : Bytes} (h : buildGt06Result c serial lang text = .ok f) :
    ¬ Gt06InputInvalid serial lang ∧ (∀ b ∈ text, b.toNat ≤ 0x7F) ∧ text.length + 12 ≤ 255 := by
  have hvalid : ¬ Gt06InputInvalid serial lang := fun hinvalid => by
    rw [buildGt06Result_of_inputInvalid c hinvalid] at h
    cases h
  have htext : ∀ b ∈ text, b.toNat ≤ 0x7F := fun b hb => Nat.not_lt.1 fun hlarge => by
    rw [buildGt06Result_of_not_ascii c hvalid ⟨b, hb, hlarge⟩] at h
    cases h
  refine ⟨hvalid, htext, Nat.not_lt.1 fun hlong => ?_⟩
  rw [buildGt06Result_of_packetTooLong c hvalid htext hlong] at h
  cases h

end Checks

/-- With the stated constants, operands in range give the frame of the stated RawFrame. -/
theorem buildGt06Result_statedConstants {serial : Word32} {lang : Byte} {text : Bytes}
    (h : ¬ Gt06InputInvalid serial lang) (htext : ∀ b ∈ text, b.toNat ≤ 0x7F) (hfits : text.length + 12 ≤ 255) :
    buildGt06Result statedConstants serial lang text =
      .ok (frame statedConstants gt06Spec
        (statedGt06Raw serial (if lang = 0x01 then 0x0001 else 0x0002) text)) := by
  obtain ⟨hserial, -⟩ := (not_gt06InputInvalid_iff serial lang).1 h
  rw [buildGt06Result_of_inRange statedConstants h htext hfits, gt06Raw_eq_statedGt06Raw lang text hserial]
  rfl

/-! ### The document's command (95_test_vectors.md V-L1-1) -/

/-- The text "WHERE#" in ASCII. -/
def documentText : Bytes := [0x57, 0x48, 0x45, 0x52, 0x45, 0x23]

/-- The RawFrame between the delimiters and the CRC of the document's literal. -/
def documentRaw : Bytes :=
  [0x12, 0x80, 0x0A, 0x00, 0x00, 0x00, 0x01, 0x57, 0x48, 0x45, 0x52, 0x45, 0x23, 0x00, 0x01, 0x05, 0xF2]

/-- The literal's CRC bytes, by running the table-driven CRC. -/
theorem crc16X25_documentRaw : crc16X25 crcTable documentRaw = 0xA222 := rfl

/-- The document's command in Chinese with the serial number 0x05F2 builds the frame around that RawFrame. -/
theorem buildGt06Result_document :
    buildGt06Result statedConstants 0x05F2 0x01 documentText =
      .ok ([0x78, 0x78] ++ documentRaw ++ [0xA2, 0x22] ++ [0x0D, 0x0A]) := by
  have hvalid : ¬ Gt06InputInvalid 0x05F2 0x01 :=
    (not_gt06InputInvalid_iff _ _).2 ⟨by decide, .inl rfl⟩
  have hraw : statedGt06Raw 0x05F2 (if (0x01 : Byte) = 0x01 then 0x0001 else 0x0002) documentText =
      documentRaw := by decide
  rw [buildGt06Result_statedConstants hvalid (by decide) (by decide), hraw, frame_gt06Spec_statedConstants,
    crc16X25_documentRaw]
  rfl

/-! ### The statements -/

/-- Settles O48: the result is the frame of the stated RawFrame, and that frame is the RawFrame and its CRC between the
delimiters. -/
theorem buildGt06AnswersTheFrame : Obligations.BuildGt06AnswersTheFrame := by
  rintro serial lang text _ s hconsts hvalid htext hfits rfl
  have hanswer := exec_answers (.buildGt06 serial lang text) s
  rw [resultOf, hconsts, buildGt06Result_statedConstants hvalid htext hfits, frame_gt06Spec_statedConstants] at hanswer
  exact hanswer

/-- Settles O49, by the checks in their order. -/
theorem buildGt06ErrorOrder : Obligations.BuildGt06ErrorOrder := fun serial lang text s =>
  ⟨fun hinvalid => exec_answers_of_resultOf (.buildGt06 serial lang text) s
      (buildGt06Result_of_inputInvalid s.consts hinvalid),
    fun hvalid htext => exec_answers_of_resultOf (.buildGt06 serial lang text) s
      (buildGt06Result_of_not_ascii s.consts hvalid htext),
    fun hvalid htext hlong => exec_answers_of_resultOf (.buildGt06 serial lang text) s
      (buildGt06Result_of_packetTooLong s.consts hvalid htext hlong)⟩

/-- Settles O50: a frame that was built is that of the stated RawFrame, of n + 11 bytes, and a GT06 frame adds the
CRC and the delimiters, six bytes; its packet-length byte is the law of every built frame. -/
theorem gt06FrameSize : Obligations.Gt06FrameSize := by
  intro serial lang text f hbuilt
  refine ⟨?_, buildGt06Result_length hbuilt⟩
  obtain ⟨hvalid, htext, hfits⟩ := inRange_of_buildGt06Result_eq_ok statedConstants hbuilt
  rw [buildGt06Result_statedConstants hvalid htext hfits] at hbuilt
  obtain rfl := Except.ok.inj hbuilt
  rw [frame_gt06Spec_length, statedGt06Raw_length]

/-- Settles O51: the descriptor decodes to the document's command, whose frame is the literal. -/
theorem gt06DocumentLiteral : Obligations.Gt06DocumentLiteral := by
  intro s hreset hconsts hport
  refine ⟨[0x78, 0x78] ++ documentRaw ++ [0xA2, 0x22] ++ [0x0D, 0x0A], ?_, rfl, by decide⟩
  have hanswer := step_answers_of_computing s _ hreset hport
  have hdecode : decode [0x31, 0x00, 0x00, 0x05, 0xF2, 0x01, 0x00, 0x00, 0x00, 0x06, 0x57, 0x48, 0x45, 0x52, 0x45,
      0x23] = .ok (.buildGt06 0x05F2 0x01 documentText) := rfl
  rw [responseTo_of_decode_ok s.consts hdecode, resultOf, hconsts, buildGt06Result_document] at hanswer
  exact hanswer

end Sys2Proof.Machine

/-! PROOF. The errors over all commands (60_exceptions.md R200 to R209). A response of one error byte tells the kind of
error and that the command raised it, so an error is answered exactly if it is the command's result. The laws of each
command's checks give the table of its errors, `Raises`; each statement reads one kind of error off that table. -/

namespace Sys2Proof.Machine

/-! ### An error response tells the result (30_encoding.md R71, R72) -/

theorem errorStatus_injective : Function.Injective errorStatus := by
  intro e e'
  cases e <;> cases e' <;> decide

theorem okStatus_ne_errorStatus (e : ErrorKind) : okStatus ≠ errorStatus e := by
  cases e <;> decide

theorem responseOf_eq_errorResponse_iff {result : Except ErrorKind Bytes} {e : ErrorKind} :
    responseOf result = errorResponse e ↔ result = .error e := by
  constructor
  · intro h
    cases result with
    | ok data => exact absurd (List.cons.inj h).1 (okStatus_ne_errorStatus e)
    | error e' => exact congrArg Except.error (errorStatus_injective (List.cons.inj h).1)
  · rintro rfl
    rfl

/-- A command answers an error exactly if it is the command's result. -/
theorem exec_answers_errorResponse_iff (i : Instr) (s : State) (e : ErrorKind) :
    AnswersWith s (exec i s) (errorResponse e) ↔ resultOf s.consts i = .error e :=
  ⟨fun h => responseOf_eq_errorResponse_iff.1 ((exec_answers i s).unique h), exec_answers_of_resultOf i s⟩

/-! ### The errors of each command -/

/-- The errors a command raises, by its operands alone: a builder's in the order of 60_exceptions.md R206, each where
none before it is raised. The packet length is the tighter of the two lengths of BUILD_GT06. -/
def Raises : Instr → ErrorKind → Prop
  | .xor8 _, _ => False
  | .crc16 _, _ => False
  | .escape _, _ => False
  | .packBe16 v, e => e = .invalidInput ∧ 0xFFFF < v.toNat
  | .packBcd digits, e => e = .invalidInput ∧ DigitsMalformed digits
  | .bsjLen v, e => e = .lengthOverflow ∧ 65535 < v.toNat
  | .gt06Len v, e => e = .lengthOverflow ∧ 255 < 1 + v.toNat + 2 + 2
  | .frame p _, e => e = .invalidInput ∧ p ≠ 0x00 ∧ p ≠ 0x01
  | .buildBsj serial digits text, e =>
    (e = .invalidInput ∧ BsjInputInvalid serial digits) ∨
      (e = .lengthOverflow ∧ ¬ BsjInputInvalid serial digits ∧ 65535 < 1 + text.length)
  | .buildGt06 serial lang text, e =>
    (e = .invalidInput ∧ Gt06InputInvalid serial lang) ∨
      (e = .encodingFailure ∧ ¬ Gt06InputInvalid serial lang ∧ ∃ b ∈ text, 0x7F < b.toNat) ∨
      (e = .lengthOverflow ∧ ¬ Gt06InputInvalid serial lang ∧ (∀ b ∈ text, b.toNat ≤ 0x7F) ∧
        255 < text.length + 12)

/-- The errors of a command with one check, from what the check answers on either side of its bound. -/
theorem eq_error_iff_of_check {result : Except ErrorKind Bytes} {kind e : ErrorKind} {bad : Prop}
    (hraises : bad → result = .error kind) (hpasses : ¬ bad → ∃ out, result = .ok out) :
    result = .error e ↔ e = kind ∧ bad := by
  by_cases hbad : bad
  · simp [hraises hbad, hbad, eq_comm]
  · obtain ⟨out, hout⟩ := hpasses hbad
    simp [hout, hbad]

theorem exists_frameResult_eq_ok (c : Constants) {p : Byte} (h : ¬ (p ≠ 0x00 ∧ p ≠ 0x01)) (raw : Bytes) :
    ∃ out, frameResult c p raw = .ok out := by
  rw [not_and_or, not_ne_iff, not_ne_iff] at h
  obtain rfl | rfl := h
  · exact ⟨_, frameResult_bsj c raw⟩
  · exact ⟨_, frameResult_gt06 c raw⟩

theorem exists_buildBsjResult_eq_ok (c : Constants) {serial : Word32} {digits text : Bytes}
    (h : ¬ BsjInputInvalid serial digits) (hfits : 1 + text.length ≤ 65535) :
    ∃ out, buildBsjResult c serial digits text = .ok out := by
  obtain ⟨hserial, hdigits⟩ := (not_bsjInputInvalid_iff serial digits).1 h
  exact ⟨_, buildBsjResult_of_parts c (checkSerial_of_le serial hserial) (bcd12_of_wellFormed hdigits)
    (bsjLen_of_le hfits)⟩

theorem buildBsjResult_eq_error_iff (c : Constants) (serial : Word32) (digits text : Bytes) (e : ErrorKind) :
    buildBsjResult c serial digits text = .error e ↔ Raises (.buildBsj serial digits text) e := by
  by_cases hinvalid : BsjInputInvalid serial digits
  · simp [Raises, buildBsjResult_of_inputInvalid c hinvalid, hinvalid, eq_comm]
  obtain hlong | hfits := Nat.lt_or_ge 65535 (1 + text.length)
  · simp [Raises, buildBsjResult_of_bodyTooLong c hinvalid hlong, hinvalid, hlong, eq_comm]
  · obtain ⟨out, hout⟩ := exists_buildBsjResult_eq_ok c hinvalid hfits
    simp [Raises, hout, hinvalid, Nat.not_lt.2 hfits]

theorem not_exists_above_ascii_iff (text : Bytes) :
    (¬ ∃ b ∈ text, 0x7F < b.toNat) ↔ ∀ b ∈ text, b.toNat ≤ 0x7F := by
  simp only [not_exists, not_and, Nat.not_lt]

theorem buildGt06Result_eq_error_iff (c : Constants) (serial : Word32) (lang : Byte) (text : Bytes) (e : ErrorKind) :
    buildGt06Result c serial lang text = .error e ↔ Raises (.buildGt06 serial lang text) e := by
  rw [Raises, ← not_exists_above_ascii_iff]
  by_cases hinvalid : Gt06InputInvalid serial lang
  · simp only [buildGt06Result_of_inputInvalid c hinvalid, hinvalid]
    simp [eq_comm]
  by_cases hlarge : ∃ b ∈ text, 0x7F < b.toNat
  · simp only [buildGt06Result_of_not_ascii c hinvalid hlarge, hinvalid, hlarge]
    simp [eq_comm]
  have htext := (not_exists_above_ascii_iff text).1 hlarge
  obtain hlong | hfits := Nat.lt_or_ge 255 (text.length + 12)
  · simp only [buildGt06Result_of_packetTooLong c hinvalid htext hlong, hinvalid, hlarge, hlong]
    simp [eq_comm]
  · simp only [buildGt06Result_of_inRange c hinvalid htext hfits, hinvalid, hlarge, Nat.not_lt.2 hfits]
    simp

/-- `Raises` is the errors of the commands' results, whatever the constants. -/
theorem resultOf_eq_error_iff (c : Constants) (i : Instr) (e : ErrorKind) :
    resultOf c i = .error e ↔ Raises i e := by
  cases i with
  | xor8 | crc16 | escape => exact ⟨nofun, False.elim⟩
  | packBe16 v => exact eq_error_iff_of_check packBe16_of_gt fun h => ⟨_, packBe16_of_le (Nat.not_lt.1 h)⟩
  | packBcd digits => exact eq_error_iff_of_check bcd12_of_malformed fun h => ⟨_, bcd12_of_wellFormed h⟩
  | bsjLen v => exact eq_error_iff_of_check bsjLen_of_gt fun h => ⟨_, bsjLen_of_le (Nat.not_lt.1 h)⟩
  | gt06Len v => exact eq_error_iff_of_check gt06Len_of_gt fun h => ⟨_, gt06Len_of_le (Nat.not_lt.1 h)⟩
  | frame p raw =>
    exact eq_error_iff_of_check (fun ⟨hbsj, hgt06⟩ => frameResult_other c hbsj hgt06 raw)
      fun h => exists_frameResult_eq_ok c h raw
  | buildBsj serial digits text => exact buildBsjResult_eq_error_iff c serial digits text e
  | buildGt06 serial lang text => exact buildGt06Result_eq_error_iff c serial lang text e

/-- A command answers an error exactly if its operands raise it. -/
theorem exec_answers_errorResponse_iff_raises (i : Instr) (s : State) (e : ErrorKind) :
    AnswersWith s (exec i s) (errorResponse e) ↔ Raises i e :=
  (exec_answers_errorResponse_iff i s e).trans (resultOf_eq_error_iff s.consts i e)

/-- No command's own meaning raises BadCommand (60_exceptions.md R204). -/
theorem not_raises_badCommand (i : Instr) : ¬ Raises i .badCommand := by
  cases i <;> simp [Raises]

/-! ### The statements -/

/-- Settles O18: each of the moves in `step_cases` answers a next state. -/
theorem everyStepAnswersANextState : Obligations.EveryStepAnswersANextState := exists_step_eq_next

/-- Settles O20: both steps answer `responseTo` of the same constants and descriptor. -/
theorem responseDependsOnDescriptorAlone : Obligations.ResponseDependsOnDescriptorAlone := by
  intro s u desc hs hu hsport huport hconsts
  refine ⟨responseTo s.consts desc, step_answers_of_computing s desc hs hsport, ?_⟩
  rw [hconsts]
  exact step_answers_of_computing u desc hu huport

/-- Settles O52: the InvalidInput entries of `Raises`; no error comes before this one. -/
theorem invalidInputRaisedExactly : Obligations.InvalidInputRaisedExactly := by
  intro i s
  refine (exec_answers_errorResponse_iff_raises i s .invalidInput).trans ?_
  cases i with
  | xor8 | crc16 | escape => exact Iff.rfl
  | packBe16 | packBcd | bsjLen | gt06Len | frame => simp [Raises]
  | buildBsj => simp [Raises, BsjInputInvalid]
  | buildGt06 => simp [Raises, Gt06InputInvalid]

/-- Settles O53: the LengthOverflow entries of `Raises`. A command length above 255 makes the packet length so too. -/
theorem lengthOverflowRaisedExactly : Obligations.LengthOverflowRaisedExactly := by
  intro i s
  refine (exec_answers_errorResponse_iff_raises i s .lengthOverflow).trans ?_
  cases i with
  | xor8 | crc16 | escape => exact Iff.rfl
  | packBe16 | packBcd | bsjLen | gt06Len | frame => simp [Raises]
  | buildBsj => simp [Raises]
  | buildGt06 serial lang text =>
    have hlengths : 255 < text.length + 12 ↔ 255 < 4 + text.length ∨ 255 < text.length + 12 := by omega
    simp only [Raises, ← hlengths]
    simp

/-- Settles O54: the one EncodingFailure entry of `Raises`. -/
theorem encodingFailureRaisedExactly : Obligations.EncodingFailureRaisedExactly := by
  intro i s
  refine (exec_answers_errorResponse_iff_raises i s .encodingFailure).trans ?_
  cases i with
  | xor8 | crc16 | escape | packBe16 | packBcd | bsjLen | gt06Len | frame => simp [Raises]
  | buildBsj | buildGt06 => simp [Raises]

/-- Settles O55: a descriptor that decodes runs its command, which never raises BadCommand. -/
theorem badCommandRaisedExactly : Obligations.BadCommandRaisedExactly := by
  intro s desc hreset hport
  cases hdecode : decode desc with
  | ok i =>
    rw [stepRunsTheDecodedCommand s desc i hreset hport hdecode]
    exact iff_of_false (fun h => not_raises_badCommand i ((exec_answers_errorResponse_iff_raises i s .badCommand).1 h))
      nofun
  | error e =>
    have hno : ¬ ∃ i, decode desc = .ok i := by simp [hdecode]
    exact iff_of_true (step_answers_badCommand hreset hport hno) ⟨e, rfl⟩

end Sys2Proof.Machine

/-! PROOF. The statements of 70_reset_and_hazards.md about the port: a served reset (R220, R221), a held response
(R225) and the answering of all waiting commands (R229). The last is by induction on the offers, whose step is what
accepting a descriptor and computing its response do together. -/

namespace Sys2Proof.Machine

/-! ### A served reset (R220, R221) -/

/-- Settles O12, by the fields of `State.performReset`. -/
theorem resetOnlyIdlesThePort : Obligations.ResetOnlyIdlesThePort := fun s hreset =>
  ⟨s.performReset, step_of_reset s hreset, s.performReset_port, s.performReset_consts, s.performReset_offered,
    s.performReset_delivered, s.performReset_hostTakes, s.performReset_resetLine⟩

/-- Settles O13: both steps answer `responseTo` of the constants, which the reset keeps. -/
theorem retryAfterResetAnswersTheSame : Obligations.RetryAfterResetAnswersTheSame := by
  intro s desc hport hreset
  refine ⟨s.performReset, responseTo s.consts desc, step_of_reset s hreset, s.performReset_delivered, ?_, ?_⟩
  · exact step_answers_of_computing { s with resetLine := false } desc rfl hport
  · exact step_answers_of_computing { s.performReset with port := .computing desc } desc rfl rfl

/-! ### A held response (R225) -/

/-- A held response that the host does not take leaves the state as it is. -/
theorem State.hold_of_holding {r : Bytes} {s : State} (hport : s.port = .holding r) : s.hold r = s := by
  rw [State.hold, ← hport]

/-- Settles O10, by the two cases of releasing the response. -/
theorem heldResponseWaitsForTheHost : Obligations.HeldResponseWaitsForTheHost := by
  intro s r hreset hport
  rw [step_of_holding s r hreset hport]
  constructor
  · intro htakes
    rw [s.release_of_takes r htakes, State.deliver]
  · intro htakes
    rw [s.release_of_not_takes r htakes, State.hold_of_holding hport]

/-! ### The waiting commands (R229) -/

/-- A run from a state whose step is known goes on from the next state. -/
theorem core_run_succ_of_step {s t : State} (h : step s = .next t) (k : Nat) :
    Host.Core.run Sys2Proof.core (k + 1) s = Host.Core.run Sys2Proof.core k t := by
  have hcore : Sys2Proof.core.step s = .next t := h
  simp only [Host.Core.run, hcore]

/-- Settles O23, by induction on the offers: two steps answer the oldest and leave an IDLE block with the rest. -/
theorem waitingCommandsAreAllAnswered : Obligations.WaitingCommandsAreAllAnswered := by
  intro s hreset hport htakes
  induction hoffered : s.offered generalizing s with
  | nil => exact ⟨s, rfl, hport, hoffered, (List.append_nil _).symm, rfl⟩
  | cons desc rest ih =>
    have haccept : step s = .next (s.accept desc rest) :=
      idleBlockAcceptsOldestOffer.1 s desc rest hreset hport hoffered
    obtain ⟨u, hanswer, htaken, -, huconsts, huoffered, hutakes, hureset⟩ :=
      step_answers_of_computing (s.accept desc rest) desc hreset rfl
    obtain ⟨huport, hudelivered⟩ := htaken htakes
    obtain ⟨t, hrun, htport, htoffered, htdelivered, htconsts⟩ :=
      ih u (hureset.trans hreset) huport (hutakes.trans htakes) huoffered
    refine ⟨t, ?_, htport, htoffered, ?_, htconsts.trans huconsts⟩
    · calc Host.Core.run Sys2Proof.core (2 * rest.length + 1 + 1) s
          = Host.Core.run Sys2Proof.core (2 * rest.length + 1) (s.accept desc rest) :=
            core_run_succ_of_step haccept _
        _ = Host.Core.run Sys2Proof.core (2 * rest.length) u := core_run_succ_of_step hanswer _
        _ = .next t := hrun
    · rw [htdelivered, hudelivered, huconsts, List.append_assoc]
      rfl

end Sys2Proof.Machine

/-! PROOF. Two hazards of 70_reset_and_hazards.md that no error shows. A checksum taken after escaping (R223) is off by
0x01 once for each escaped byte. A CRC table that differs in an entry (R226) is seen in the frame of the one-byte
RawFrame whose CRC reads that entry. -/

namespace Sys2Proof.Machine

/-! ### The checksum after escaping (R223) -/

theorem xor8_cons (b : Byte) (s : Bytes) : xor8 (b :: s) = b ^^^ xor8 s := by
  rw [← List.singleton_append, xor8_append, xor8_singleton]

/-- An escape's two bytes are the byte they stand for, off by 0x01. -/
theorem xor8_escape_pair {b esc code : Byte} (hpair : esc ^^^ code = b ^^^ 0x01) {s t ones : Bytes}
    (ih : xor8 t = xor8 s ^^^ xor8 ones) :
    xor8 (esc :: code :: t) = xor8 (b :: s) ^^^ xor8 (0x01 :: ones) := by
  rw [xor8_cons, xor8_cons, xor8_cons, xor8_cons, ih]
  calc esc ^^^ (code ^^^ (xor8 s ^^^ xor8 ones))
      = (esc ^^^ code) ^^^ (xor8 s ^^^ xor8 ones) := by ac_rfl
    _ = (b ^^^ 0x01) ^^^ (xor8 s ^^^ xor8 ones) := by rw [hpair]
    _ = (b ^^^ xor8 s) ^^^ (0x01 ^^^ xor8 ones) := by ac_rfl

/-- Each escaped byte puts a 0x01 into the checksum. -/
theorem xor8_escape (s : Bytes) : xor8 (escape s) = xor8 s ^^^ xor8 (List.replicate (reservedCount s) 0x01) := by
  induction s using reservedInduction with
  | nil => rfl
  | flag s ih =>
    rw [escape_cons_flag, reservedCount_cons_flag, List.replicate_succ]
    exact xor8_escape_pair (b := 0x7E) (esc := 0x7D) (code := 0x02) rfl ih
  | esc s ih =>
    rw [escape_cons_esc, reservedCount_cons_esc, List.replicate_succ]
    exact xor8_escape_pair (b := 0x7D) (esc := 0x7D) (code := 0x01) rfl ih
  | other b s hf he ih =>
    rw [escape_cons_other hf he, reservedCount_cons_other hf he, xor8_cons, xor8_cons, ih, BitVec.xor_assoc]

/-- An even number of 0x01 bytes cancels in the checksum, an odd number leaves one. -/
theorem xor8_replicate_one (n : Nat) : xor8 (List.replicate n 0x01) = BitVec.ofNat 8 (n % 2) := by
  induction n using Nat.twoStepInduction with
  | zero => rfl
  | one => rfl
  | more n ih _ =>
    rw [List.replicate_succ, List.replicate_succ, xor8_cons, xor8_cons, ← BitVec.xor_assoc, BitVec.xor_self,
      BitVec.zero_xor, ih, Nat.add_mod_right]

/-- Settles O36: the two checksums differ by the exclusive-or of as many 0x01 as bytes are escaped. -/
theorem checksumAfterEscapingDiffers : Obligations.ChecksumAfterEscapingDiffers := by
  intro s
  rw [xor8_escape, xor8_replicate_one]
  obtain heven | hodd := Nat.mod_two_eq_zero_or_one (reservedCount s)
  · simp [heven]
  · simp [hodd]

/-! ### A part whose CRC table differs (R226) -/

/-- The byte whose CRC reads the table at `j`. -/
def probeByte (j : Byte) : Byte := ~~~j

theorem crcUpdate_crcInit_probeByte (rom : Vector Word16 256) (j : Byte) :
    crcUpdate rom crcInit (probeByte j) = (crcInit >>> 8) ^^^ romRead rom j := by
  have hindex : (crcInit ^^^ (probeByte j).setWidth 16).extractLsb' 0 8 = j :=
    calc (crcInit ^^^ (probeByte j).setWidth 16).extractLsb' 0 8
        = crcInit.setWidth 8 ^^^ ((probeByte j).setWidth 16).setWidth 8 := by
          rw [← BitVec.setWidth_eq_extractLsb' (by decide), BitVec.setWidth_xor]
      _ = BitVec.allOnes 8 ^^^ ~~~j := by
          rw [BitVec.setWidth_setWidth_of_le (probeByte j) (by decide), BitVec.setWidth_eq]
          rfl
      _ = j := by rw [BitVec.allOnes_xor, BitVec.not_not]
  rw [crcUpdate, hindex]

/-- The CRC of that one byte tells the entry. -/
theorem romRead_eq_of_crc16X25_probeByte {rom rom' : Vector Word16 256} {j : Byte}
    (h : crc16X25 rom [probeByte j] = crc16X25 rom' [probeByte j]) : romRead rom j = romRead rom' j := by
  have hupdate : crcUpdate rom crcInit (probeByte j) = crcUpdate rom' crcInit (probeByte j) :=
    (BitVec.xor_left_inj crcXorOut).1 h
  rw [crcUpdate_crcInit_probeByte, crcUpdate_crcInit_probeByte] at hupdate
  exact (BitVec.xor_right_inj _).1 hupdate

theorem be16_injective : Function.Injective be16 := fun v w h =>
  BitVec.eq_of_toNat_eq <| Option.some.inj <| by rw [← unpackBe16_be16, h, unpackBe16_be16]

/-- GT06 frames of one RawFrame by two tables are equal only if the CRCs are. -/
theorem crc16X25_eq_of_frame_gt06Spec_eq {c c' : Constants} {raw : Bytes}
    (h : frame c gt06Spec raw = frame c' gt06Spec raw) : crc16X25 c.crcRom raw = crc16X25 c'.crcRom raw := by
  rw [frame_gt06Spec, frame_gt06Spec] at h
  exact be16_injective (by simpa using h)

/-- Settles O30: the RawFrame is the byte whose CRC reads the differing entry. -/
theorem divergentRomIsSilentlyWrong : Obligations.DivergentRomIsSilentlyWrong := by
  intro s rom j hconsts hentry
  refine ⟨[probeByte j], frame s.consts gt06Spec [probeByte j], ?answer, fun hframe => hentry ?wrong⟩
  case answer =>
    have hresult : resultOf s.consts (.frame 0x01 [probeByte j]) = .ok (frame s.consts gt06Spec [probeByte j]) := by
      rw [resultOf, frameResult_gt06, hconsts]
      rfl
    exact exec_answers_of_resultOf _ s hresult
  case wrong =>
    rw [be16_eq_twoBytes, ← frame_gt06Spec_statedConstants, hconsts] at hframe
    exact romRead_eq_of_crc16X25_probeByte (crc16X25_eq_of_frame_gt06Spec_eq hframe)

end Sys2Proof.Machine
